-- ==== Sys2Proof/Word.lean ====
section
/-! DEFINITION. The widths of the CHIP-8 block: bytes (R20), 16-bit words (R22, R23), register indices (R10). -/
namespace Sys2Proof

/-- One byte: a general register, a timer, a memory cell (R20, R25, R28, R29). -/
abbrev Byte := BitVec 8

/-- 16 bits: PC, I, a stack entry, an instruction word, the key states (R22, R23, R24, R31, R94). -/
abbrev Word := BitVec 16

/-- The index of one of V0..VF (R20): every value 0..15 names a register. -/
abbrev RegIdx := Fin 16

/-- The 12-bit address operand `nnn` (R95). -/
abbrev Addr12 := BitVec 12

/-- The 4-bit row count `n` (R95). -/
abbrev Nibble := BitVec 4

end Sys2Proof
end

