-- ==== Sys2Proof/Syntax.lean ====
section
/-! DEFINITION. The 35 instruction variants of R97, one constructor per row of spec/opcode_table.json, with the
operands of R94. -/
namespace Sys2Proof

/-- A decoded instruction (R97). `x`, `y` name registers, `kk` is a byte, `nnn` an address, `n` a row count (R10). -/
inductive Instr where
  | sys (nnn : Addr12)
  | cls
  | ret
  | jp (nnn : Addr12)
  | call (nnn : Addr12)
  | seVxKk (x : RegIdx) (kk : Byte)
  | sneVxKk (x : RegIdx) (kk : Byte)
  | seVxVy (x y : RegIdx)
  | ldVxKk (x : RegIdx) (kk : Byte)
  | addVxKk (x : RegIdx) (kk : Byte)
  | ldVxVy (x y : RegIdx)
  | orVxVy (x y : RegIdx)
  | andVxVy (x y : RegIdx)
  | xorVxVy (x y : RegIdx)
  | addVxVy (x y : RegIdx)
  | sub (x y : RegIdx)
  | shr (x y : RegIdx)
  | subn (x y : RegIdx)
  | shl (x y : RegIdx)
  | sneVxVy (x y : RegIdx)
  | ldINnn (nnn : Addr12)
  | jpV0Nnn (nnn : Addr12)
  | rnd (x : RegIdx) (kk : Byte)
  | drw (x y : RegIdx) (n : Nibble)
  | skp (x : RegIdx)
  | sknp (x : RegIdx)
  | ldVxDt (x : RegIdx)
  | ldVxK (x : RegIdx)
  | ldDtVx (x : RegIdx)
  | ldStVx (x : RegIdx)
  | addIVx (x : RegIdx)
  | ldFVx (x : RegIdx)
  | ldBVx (x : RegIdx)
  | ldMemIVx (x : RegIdx)
  | ldVxMemI (x : RegIdx)
deriving DecidableEq, Repr

end Sys2Proof
end

