-- ==== Sys2Proof/WellFormed.lean ====
section
/-! DEFINITION. Which instruction terms a word of the opcode map can stand for. -/
namespace Sys2Proof

/-- `true` when some 16-bit word decodes to this term. The operand types carry every width (R94, R95), so the only
check left is the precedence of R99: the words 0x00E0 and 0x00EE are CLS and RET, so no word is SYS 0x0E0 or
SYS 0x0EE. -/
def Instr.wellFormed (i : Instr) : Bool :=
  match i with
  | .sys nnn => nnn != 0x0E0#12 && nnn != 0x0EE#12
  | .cls | .ret => true
  | .jp _ | .call _ | .ldINnn _ | .jpV0Nnn _ => true
  | .seVxKk _ _ | .sneVxKk _ _ | .ldVxKk _ _ | .addVxKk _ _ | .rnd _ _ => true
  | .seVxVy _ _ | .sneVxVy _ _ | .ldVxVy _ _ | .orVxVy _ _ | .andVxVy _ _ | .xorVxVy _ _ => true
  | .addVxVy _ _ | .sub _ _ | .shr _ _ | .subn _ _ | .shl _ _ => true
  | .drw _ _ _ => true
  | .skp _ | .sknp _ | .ldVxDt _ | .ldVxK _ | .ldDtVx _ | .ldStVx _ => true
  | .addIVx _ | .ldFVx _ | .ldBVx _ | .ldMemIVx _ | .ldVxMemI _ => true

end Sys2Proof
end

