-- ==== Sys2Proof/Decode.lean ====
section
/-! DEFINITION. The fields of an instruction word (R10), the decoder (R91, R97, R98, R99), the encoder written from
the same patterns, and the opcode map of R97 as a table of match and mask words. -/
namespace Sys2Proof

/-! ### Fields (R10) -/

/-- `h = op[15:12]`, the primary dispatch nibble. -/
def fieldH (op : Word) : BitVec 4 := op.extractLsb' 12 4

/-- `x = op[11:8]`, a register index. -/
def fieldX (op : Word) : RegIdx := (op.extractLsb' 8 4).toFin

/-- `y = op[7:4]`, a register index. -/
def fieldY (op : Word) : RegIdx := (op.extractLsb' 4 4).toFin

/-- `n = op[3:0]`. -/
def fieldN (op : Word) : Nibble := op.extractLsb' 0 4

/-- `kk = op[7:0]`. -/
def fieldKk (op : Word) : Byte := op.extractLsb' 0 8

/-- `nnn = op[11:0]`. -/
def fieldNnn (op : Word) : Addr12 := op.extractLsb' 0 12

/-! ### The decoder -/

/-- Why bytes are no instruction. -/
inductive DecodeError where
  /-- The word matches none of the 35 patterns (R98). -/
  | unknownOpcode (op : Word)
  /-- Fewer than the two bytes of an instruction word were given (R94). -/
  | truncated
deriving DecidableEq, Repr

/-- Group 0x0 dispatches on the whole word: 0x00E0 and 0x00EE exactly, every other word is SYS (R99). -/
def decodeGroup0 (op : Word) : Instr :=
  if op = 0x00E0#16 then .cls
  else if op = 0x00EE#16 then .ret
  else .sys (fieldNnn op)

/-- Group 0x8 dispatches on `n` (R91, R97, R98). -/
def decodeGroup8 (op : Word) : Except DecodeError Instr :=
  match (fieldN op).toNat with
  | 0x0 => .ok (.ldVxVy (fieldX op) (fieldY op))
  | 0x1 => .ok (.orVxVy (fieldX op) (fieldY op))
  | 0x2 => .ok (.andVxVy (fieldX op) (fieldY op))
  | 0x3 => .ok (.xorVxVy (fieldX op) (fieldY op))
  | 0x4 => .ok (.addVxVy (fieldX op) (fieldY op))
  | 0x5 => .ok (.sub (fieldX op) (fieldY op))
  | 0x6 => .ok (.shr (fieldX op) (fieldY op))
  | 0x7 => .ok (.subn (fieldX op) (fieldY op))
  | 0xE => .ok (.shl (fieldX op) (fieldY op))
  | _ => .error (.unknownOpcode op)

/-- Group 0xE dispatches on `kk` (R91, R97, R98). -/
def decodeGroupE (op : Word) : Except DecodeError Instr :=
  match (fieldKk op).toNat with
  | 0x9E => .ok (.skp (fieldX op))
  | 0xA1 => .ok (.sknp (fieldX op))
  | _ => .error (.unknownOpcode op)

/-- Group 0xF dispatches on `kk` (R91, R97, R98). -/
def decodeGroupF (op : Word) : Except DecodeError Instr :=
  match (fieldKk op).toNat with
  | 0x07 => .ok (.ldVxDt (fieldX op))
  | 0x0A => .ok (.ldVxK (fieldX op))
  | 0x15 => .ok (.ldDtVx (fieldX op))
  | 0x18 => .ok (.ldStVx (fieldX op))
  | 0x1E => .ok (.addIVx (fieldX op))
  | 0x29 => .ok (.ldFVx (fieldX op))
  | 0x33 => .ok (.ldBVx (fieldX op))
  | 0x55 => .ok (.ldMemIVx (fieldX op))
  | 0x65 => .ok (.ldVxMemI (fieldX op))
  | _ => .error (.unknownOpcode op)

/-- The decoder (R91): the word selects one row of R97 or is an unknown encoding (R98). It depends on the word
alone. -/
def decode (op : Word) : Except DecodeError Instr :=
  match (fieldH op).toNat with
  | 0x0 => .ok (decodeGroup0 op)
  | 0x1 => .ok (.jp (fieldNnn op))
  | 0x2 => .ok (.call (fieldNnn op))
  | 0x3 => .ok (.seVxKk (fieldX op) (fieldKk op))
  | 0x4 => .ok (.sneVxKk (fieldX op) (fieldKk op))
  | 0x5 => if fieldN op = 0#4 then .ok (.seVxVy (fieldX op) (fieldY op)) else .error (.unknownOpcode op)
  | 0x6 => .ok (.ldVxKk (fieldX op) (fieldKk op))
  | 0x7 => .ok (.addVxKk (fieldX op) (fieldKk op))
  | 0x8 => decodeGroup8 op
  | 0x9 => if fieldN op = 0#4 then .ok (.sneVxVy (fieldX op) (fieldY op)) else .error (.unknownOpcode op)
  | 0xA => .ok (.ldINnn (fieldNnn op))
  | 0xB => .ok (.jpV0Nnn (fieldNnn op))
  | 0xC => .ok (.rnd (fieldX op) (fieldKk op))
  | 0xD => .ok (.drw (fieldX op) (fieldY op) (fieldN op))
  | 0xE => decodeGroupE op
  | 0xF => decodeGroupF op
  | _ => .error (.unknownOpcode op)

/-- An instruction word from the byte at the lower address, its high half, and the next byte (R64). -/
def wordOfBytes (hi lo : Byte) : Word := hi ++ lo

/-- The high byte of a word, which stands at the lower address (R64). -/
def hiByte (op : Word) : Byte := op.extractLsb' 8 8

/-- The low byte of a word, which stands at the higher address (R64). -/
def loByte (op : Word) : Byte := op.extractLsb' 0 8

/-- Decode the first instruction of a byte sequence and return the bytes that follow it: every instruction is two
bytes, high byte first (R64, R94). -/
def decodeBytes : List Byte → Except DecodeError (Instr × List Byte)
  | hi :: lo :: rest =>
    match decode (wordOfBytes hi lo) with
    | .ok i => .ok (i, rest)
    | .error e => .error e
  | _ => .error .truncated

/-- The low `nbits` bits of `w` as an instruction word; every bit above them is 0. -/
def tableWord (nbits w : Nat) : Word := BitVec.ofNat 16 (w % 2 ^ nbits)

/-- What the decoder reads from a row of spec/opcode_table.json: the word laid out as memory holds it, high byte
first (R64). -/
def decodeTableWord (nbits w : Nat) : Option Instr :=
  match decodeBytes [hiByte (tableWord nbits w), loByte (tableWord nbits w)] with
  | .ok (i, _) => some i
  | .error _ => none

/-! ### The encoder (the formats of R94, the patterns of R97) -/

/-- A register index as the 4 bits of a field. -/
def regBits (r : RegIdx) : BitVec 4 := BitVec.ofFin r

/-- Format ADDR: `hhhh nnnn nnnn nnnn`. -/
def wordAddr (h : BitVec 4) (nnn : Addr12) : Word := h ++ nnn

/-- Formats XKK and X: `hhhh xxxx kkkk kkkk`. -/
def wordXkk (h : BitVec 4) (x : RegIdx) (kk : Byte) : Word := h ++ (regBits x ++ kk : BitVec 12)

/-- Formats XY and XYN: `hhhh xxxx yyyy nnnn`. -/
def wordXyn (h : BitVec 4) (x y : RegIdx) (n : Nibble) : Word :=
  h ++ (regBits x ++ (regBits y ++ n : BitVec 8) : BitVec 12)

/-- The word of an instruction (R97). -/
def encode (i : Instr) : Word :=
  match i with
  | .sys nnn => wordAddr 0x0#4 nnn
  | .cls => 0x00E0#16
  | .ret => 0x00EE#16
  | .jp nnn => wordAddr 0x1#4 nnn
  | .call nnn => wordAddr 0x2#4 nnn
  | .seVxKk x kk => wordXkk 0x3#4 x kk
  | .sneVxKk x kk => wordXkk 0x4#4 x kk
  | .seVxVy x y => wordXyn 0x5#4 x y 0x0#4
  | .ldVxKk x kk => wordXkk 0x6#4 x kk
  | .addVxKk x kk => wordXkk 0x7#4 x kk
  | .ldVxVy x y => wordXyn 0x8#4 x y 0x0#4
  | .orVxVy x y => wordXyn 0x8#4 x y 0x1#4
  | .andVxVy x y => wordXyn 0x8#4 x y 0x2#4
  | .xorVxVy x y => wordXyn 0x8#4 x y 0x3#4
  | .addVxVy x y => wordXyn 0x8#4 x y 0x4#4
  | .sub x y => wordXyn 0x8#4 x y 0x5#4
  | .shr x y => wordXyn 0x8#4 x y 0x6#4
  | .subn x y => wordXyn 0x8#4 x y 0x7#4
  | .shl x y => wordXyn 0x8#4 x y 0xE#4
  | .sneVxVy x y => wordXyn 0x9#4 x y 0x0#4
  | .ldINnn nnn => wordAddr 0xA#4 nnn
  | .jpV0Nnn nnn => wordAddr 0xB#4 nnn
  | .rnd x kk => wordXkk 0xC#4 x kk
  | .drw x y n => wordXyn 0xD#4 x y n
  | .skp x => wordXkk 0xE#4 x 0x9E#8
  | .sknp x => wordXkk 0xE#4 x 0xA1#8
  | .ldVxDt x => wordXkk 0xF#4 x 0x07#8
  | .ldVxK x => wordXkk 0xF#4 x 0x0A#8
  | .ldDtVx x => wordXkk 0xF#4 x 0x15#8
  | .ldStVx x => wordXkk 0xF#4 x 0x18#8
  | .addIVx x => wordXkk 0xF#4 x 0x1E#8
  | .ldFVx x => wordXkk 0xF#4 x 0x29#8
  | .ldBVx x => wordXkk 0xF#4 x 0x33#8
  | .ldMemIVx x => wordXkk 0xF#4 x 0x55#8
  | .ldVxMemI x => wordXkk 0xF#4 x 0x65#8

/-! ### The opcode map of R97 -/

/-- A row of R97: a word matches it when `op &&& mask = pattern`. -/
structure OpcodeRow where
  pattern : Word
  mask : Word
deriving DecidableEq, Repr

/-- `(op & mask) == match` (R97). -/
def OpcodeRow.covers (r : OpcodeRow) (op : Word) : Bool := op &&& r.mask == r.pattern

/-- The row of R97 an instruction belongs to. -/
def rowOf (i : Instr) : OpcodeRow :=
  match i with
  | .sys _ => ⟨0x0000#16, 0xF000#16⟩
  | .cls => ⟨0x00E0#16, 0xFFFF#16⟩
  | .ret => ⟨0x00EE#16, 0xFFFF#16⟩
  | .jp _ => ⟨0x1000#16, 0xF000#16⟩
  | .call _ => ⟨0x2000#16, 0xF000#16⟩
  | .seVxKk _ _ => ⟨0x3000#16, 0xF000#16⟩
  | .sneVxKk _ _ => ⟨0x4000#16, 0xF000#16⟩
  | .seVxVy _ _ => ⟨0x5000#16, 0xF00F#16⟩
  | .ldVxKk _ _ => ⟨0x6000#16, 0xF000#16⟩
  | .addVxKk _ _ => ⟨0x7000#16, 0xF000#16⟩
  | .ldVxVy _ _ => ⟨0x8000#16, 0xF00F#16⟩
  | .orVxVy _ _ => ⟨0x8001#16, 0xF00F#16⟩
  | .andVxVy _ _ => ⟨0x8002#16, 0xF00F#16⟩
  | .xorVxVy _ _ => ⟨0x8003#16, 0xF00F#16⟩
  | .addVxVy _ _ => ⟨0x8004#16, 0xF00F#16⟩
  | .sub _ _ => ⟨0x8005#16, 0xF00F#16⟩
  | .shr _ _ => ⟨0x8006#16, 0xF00F#16⟩
  | .subn _ _ => ⟨0x8007#16, 0xF00F#16⟩
  | .shl _ _ => ⟨0x800E#16, 0xF00F#16⟩
  | .sneVxVy _ _ => ⟨0x9000#16, 0xF00F#16⟩
  | .ldINnn _ => ⟨0xA000#16, 0xF000#16⟩
  | .jpV0Nnn _ => ⟨0xB000#16, 0xF000#16⟩
  | .rnd _ _ => ⟨0xC000#16, 0xF000#16⟩
  | .drw _ _ _ => ⟨0xD000#16, 0xF000#16⟩
  | .skp _ => ⟨0xE09E#16, 0xF0FF#16⟩
  | .sknp _ => ⟨0xE0A1#16, 0xF0FF#16⟩
  | .ldVxDt _ => ⟨0xF007#16, 0xF0FF#16⟩
  | .ldVxK _ => ⟨0xF00A#16, 0xF0FF#16⟩
  | .ldDtVx _ => ⟨0xF015#16, 0xF0FF#16⟩
  | .ldStVx _ => ⟨0xF018#16, 0xF0FF#16⟩
  | .addIVx _ => ⟨0xF01E#16, 0xF0FF#16⟩
  | .ldFVx _ => ⟨0xF029#16, 0xF0FF#16⟩
  | .ldBVx _ => ⟨0xF033#16, 0xF0FF#16⟩
  | .ldMemIVx _ => ⟨0xF055#16, 0xF0FF#16⟩
  | .ldVxMemI _ => ⟨0xF065#16, 0xF0FF#16⟩

/-- One term for each of the 35 rows of R97, in the table's order; its operands do not matter. -/
def opcodeMap : List Instr :=
  [.sys 0#12, .cls, .ret, .jp 0#12, .call 0#12, .seVxKk 0 0#8, .sneVxKk 0 0#8, .seVxVy 0 0, .ldVxKk 0 0#8,
   .addVxKk 0 0#8, .ldVxVy 0 0, .orVxVy 0 0, .andVxVy 0 0, .xorVxVy 0 0, .addVxVy 0 0, .sub 0 0, .shr 0 0,
   .subn 0 0, .shl 0 0, .sneVxVy 0 0, .ldINnn 0#12, .jpV0Nnn 0#12, .rnd 0 0#8, .drw 0 0 0#4, .skp 0, .sknp 0,
   .ldVxDt 0, .ldVxK 0, .ldDtVx 0, .ldStVx 0, .addIVx 0, .ldFVx 0, .ldBVx 0, .ldMemIVx 0, .ldVxMemI 0]

end Sys2Proof
end

