-- ==== Sys2Proof/Config.lean ====
section
/-! DEFINITION. The fixed sizes of the block (R4), its behaviour parameters (R12), and its one free value: the
random source RND8 (R56). -/
namespace Sys2Proof.Config

/-- The highest address of MEM (R4, R60): 4096 bytes at 0x000..0xFFF. -/
def maxAddr : Nat := 0xFFF

/-- Where LOAD puts a program and where execution starts (R4, R23, R61). -/
def programBase : Nat := 0x200

/-- The longest program image LOAD accepts (R4, R282): 0xFFF - 0x200 + 1 bytes. -/
def maxProgram : Nat := 0xE00

/-- The number of return addresses the call stack holds (R4, R24). -/
def stackDepth : Nat := 16

/-- Bytes of one font glyph (R4, R27). -/
def glyphBytes : Nat := 5

/-- Bytes of the whole font: 16 glyphs of 5 bytes (R5, R27). -/
def fontBytes : Nat := 80

/-- The random-source input RND8 (R56, R176): the value of the k-th draw. It has no body, so nothing constrains it
(log entry 3). -/
opaque rnd8 : Nat → Byte

end Sys2Proof.Config

namespace Sys2Proof

/-- SYS_MODE of R12: what SYS nnn does. -/
inductive SysMode where
  | nop
  | fault
deriving DecidableEq, Repr

/-- VF_WRITE_ORDER of R12: which of the two writes of an instruction that writes V[x] and VF comes last. -/
inductive VfWriteOrder where
  | flagLast
  | resultLast
deriving DecidableEq, Repr

/-- SHIFT_SOURCE of R12: the register SHR and SHL read. -/
inductive ShiftSource where
  | vx
  | vy
deriving DecidableEq, Repr

/-- The behaviour parameters of R12, other than HOST_SCHEDULE (Machine/Transactions.lean). FONT_BASE ranges over
0x000..0x1B0, so that FONT_BASE + 80 <= 0x200 (R5). -/
structure Params where
  fontBase : Fin 0x1B1
  sysMode : SysMode
  vfWriteOrder : VfWriteOrder
  shiftSource : ShiftSource
  memIncrementsI : Bool
deriving DecidableEq, Repr

end Sys2Proof
end

