-- ==== Sys2Proof/Machine/Defaults.lean ====
section
/-! DEFINITION. The values R12 gives the behaviour parameters where nothing else is asked for. -/
namespace Sys2Proof.Machine

/-- The defaults of R12: FONT_BASE = 0x050, SYS_MODE = nop, VF_WRITE_ORDER = flag_last, SHIFT_SOURCE = vx,
MEM_INCREMENTS_I = false. -/
def defaultParams : Params where
  fontBase := 0x050
  sysMode := .nop
  vfWriteOrder := .flagLast
  shiftSource := .vx
  memIncrementsI := false

end Sys2Proof.Machine
end

