-- ==== Sys2Proof/Machine/Memory.lean ====
section
/-! DEFINITION. MEM (R25, R60) as a list of (address, byte) pairs in one canonical form, and what an address that is
not listed reads as: its content after initialization (R25, R26, R27). -/
namespace Sys2Proof.Machine

/-- The five rows of the glyph of each hexadecimal digit, digit 0 first (R27). -/
def fontGlyphs : List (List Byte) :=
  [[0xF0, 0x90, 0x90, 0x90, 0xF0], [0x20, 0x60, 0x20, 0x20, 0x70],
   [0xF0, 0x10, 0xF0, 0x80, 0xF0], [0xF0, 0x10, 0xF0, 0x10, 0xF0]] ++
  [[0x90, 0x90, 0xF0, 0x10, 0x10], [0xF0, 0x80, 0xF0, 0x10, 0xF0],
   [0xF0, 0x80, 0xF0, 0x90, 0xF0], [0xF0, 0x10, 0x20, 0x40, 0x40]] ++
  [[0xF0, 0x90, 0xF0, 0x90, 0xF0], [0xF0, 0x90, 0xF0, 0x10, 0xF0],
   [0xF0, 0x90, 0xF0, 0x90, 0x90], [0xE0, 0x90, 0xE0, 0x90, 0xE0]] ++
  [[0xF0, 0x80, 0x80, 0x80, 0xF0], [0xE0, 0x90, 0x90, 0x90, 0xE0],
   [0xF0, 0x80, 0xF0, 0x80, 0xF0], [0xF0, 0x80, 0xF0, 0x80, 0x80]]

/-- Row `r` of the glyph of digit `d`. -/
def fontRow (d r : Nat) : Byte := (fontGlyphs.getD d []).getD r 0

/-- What an address that memory does not list reads as: its content after initialization, the font at FONT_BASE and
0 everywhere else (R25, R26, R280). -/
def unlisted (fontBase a : Nat) : Byte :=
  if fontBase ≤ a ∧ a < fontBase + Config.fontBytes then
    fontRow ((a - fontBase) / Config.glyphBytes) ((a - fontBase) % Config.glyphBytes)
  else 0

/-- The content of MEM: listed addresses strictly rising, and nothing listed that reads the same unlisted. -/
abbrev Memory := List Host.Cell

/-- The byte at an address, `bg` being what unlisted addresses read as. -/
def Memory.read (bg : Nat → Byte) : Memory → Nat → Byte
  | [], a => bg a
  | (k, c) :: m, a => if a < k then bg a else if a = k then c else Memory.read bg m a

/-- Put a byte at an address, keeping the canonical form. -/
def Memory.write (bg : Nat → Byte) : Memory → Nat → Byte → Memory
  | [], a, b => if b = bg a then [] else [(a, b)]
  | (k, c) :: m, a, b =>
    if a < k then (if b = bg a then (k, c) :: m else (a, b) :: (k, c) :: m)
    else if a = k then (if b = bg a then m else (a, b) :: m)
    else (k, c) :: Memory.write bg m a b

/-- The canonical form: addresses strictly rising, all of them in 0x000..0xFFF (R60), and no entry equal to what the
address reads as unlisted. -/
abbrev Memory.wf (bg : Nat → Byte) (m : Memory) : Prop :=
  m.Pairwise (fun c d => c.1 < d.1) ∧ ∀ c ∈ m, c.1 ≤ Config.maxAddr ∧ c.2 ≠ bg c.1

/-- Put bytes at consecutive addresses from `base` up (R282). -/
def Memory.writeAll (bg : Nat → Byte) : Memory → Nat → List Byte → Memory
  | m, _, [] => m
  | m, base, b :: bs => Memory.writeAll bg (Memory.write bg m base b) (base + 1) bs

end Sys2Proof.Machine
end

