-- ==== Sys2Proof/Machine/State.lean ====
section
/-! DEFINITION. Everything the spec gives the machine (R20 to R41, the summary table of 10_state.md section 10), the
model's own two fields, and the state at power-up (R281). -/
namespace Sys2Proof.Machine

/-- The runtime fault kinds of R250. They are taken as the halt of R253, a next state, and are no outcome of their
own. -/
inductive FaultKind where
  | addressOutOfRange
  | unknownOpcode
  | stackOverflow
  | stackUnderflow
  | keyIndexOutOfRange
deriving DecidableEq, Repr

/-- The cause codes of R250. -/
def FaultKind.code : FaultKind → Nat
  | .addressOutOfRange => 1
  | .unknownOpcode => 2
  | .stackOverflow => 3
  | .stackUnderflow => 4
  | .keyIndexOutOfRange => 5

/-- The fault record of R41. -/
structure FaultRecord where
  kind : FaultKind
  /-- The address of the faulting instruction. -/
  pc : Word
  /-- The word fetched, or none for a fetch fault. -/
  opcode : Option Word
  /-- The offending address of an AddressOutOfRange, else none. -/
  addr : Option Nat
deriving DecidableEq, Repr

/-- RUN, the engine's control state (R40). -/
inductive RunState where
  | idle
  | normal
  | waitingForKey
  | halted
deriving DecidableEq, Repr

/-- The reasons a step could stop outside the spec's own halt. There are none: every fault of R250 is taken as the
halt of R253, whose result is a next state (log entry 1, safe), and the spec leaves no instruction without an
effect. -/
inductive Fault where
deriving DecidableEq, Repr

/-- The reasons the model could give an instruction no meaning. -/
inductive Refusal where
  /-- Raised by an arm of `exec` whose instruction has no meaning yet; no arm does (safe). -/
  | notModelled (mnemonic : String)
deriving DecidableEq, Repr

/-- DISP (R30): 32 rows of 64 pixels, row y holding DISP[y][x] in its bit x (log entry 8). -/
abbrev Grid := Vector (BitVec 64) 32

/-- The state of the block. -/
structure State where
  /-- V[0..15] (R20); V[15] is VF, the flag register (R21). -/
  v : Vector Byte 16
  /-- I, the index register (R22). -/
  i : Word
  /-- PC, the program counter (R23). -/
  pc : Word
  /-- SP, the number of call stack entries held, 0..16 (R24). -/
  sp : Fin 17
  /-- STACK[0..15] (R24). -/
  stack : Vector Word 16
  /-- MEM (R25). -/
  mem : Memory
  /-- DT, the delay timer (R28). -/
  dt : Byte
  /-- ST, the sound timer (R29). -/
  st : Byte
  /-- DISP (R30). -/
  disp : Grid
  /-- KEY (R31): bit k is KEY[k]. -/
  key : Word
  /-- KEY_PREV, the keys seen at the previous poll (R32). -/
  keyPrev : Word
  /-- WAIT_X, the destination of the pending wait (R33). -/
  waitX : RegIdx
  /-- RUN (R40). -/
  run : RunState
  /-- FAULT (R41). -/
  faultRec : Option FaultRecord
  /-- The model's own field: how many values RND8 has given so far (R56, log entry 3). -/
  rndDraws : Nat
  /-- The model's own field: the behaviour parameters of R12, fixed for a run (log entry 4). -/
  params : Params
deriving DecidableEq, Repr

/-- The state at power-up (R280, R281), before any LOAD: RUN = Idle, the font in memory and nothing else. -/
def State.reset : State where
  v := .replicate 16 0
  i := 0
  pc := BitVec.ofNat 16 Config.programBase
  sp := 0
  stack := .replicate 16 0
  mem := []
  dt := 0
  st := 0
  disp := .replicate 32 0
  key := 0
  keyPrev := 0
  waitX := 0
  run := .idle
  faultRec := none
  rndDraws := 0
  params := defaultParams

end Sys2Proof.Machine
end

