-- ==== Sys2Proof/Machine/Ops.lean ====
section
/-! DEFINITION. The named operations over registers, memory and control state: register access (R20), MemRead and
MemWrite (R62), fetch (R90), the PC updates (R93), raising a fault (R253), and initialization (R280), which is the
only way back from a fault (R255). -/
namespace Sys2Proof.Machine

/-- What a step or an instruction answers. -/
abbrev Result := Host.Outcome State Fault Refusal

namespace State

/-! ### Registers -/

/-- V[x] (R20). -/
def reg (s : State) (x : RegIdx) : Byte := s.v[x]

/-- V[x] <- b (R20). -/
def setReg (s : State) (x : RegIdx) (b : Byte) : State := { s with v := s.v.set x b }

/-- VF, the flag register (R21). -/
def vf (s : State) : Byte := s.reg 15

/-- I <- a (R22). -/
def setI (s : State) (a : Word) : State := { s with i := a }

/-- DT <- b (R28). -/
def setDt (s : State) (b : Byte) : State := { s with dt := b }

/-- ST <- b (R29). -/
def setSt (s : State) (b : Byte) : State := { s with st := b }

/-- DISP <- d (R30). -/
def setDisp (s : State) (d : Grid) : State := { s with disp := d }

/-- KEY[k], the state of key `k` (R31). -/
def keyDown (s : State) (k : Nat) : Bool := s.key.getLsbD k

/-- DISP[y][x] (R30). -/
def pixel (s : State) (y : Fin 32) (x : Fin 64) : Bool := s.disp[y].getLsbD x

/-! ### The program counter (R93) -/

/-- Class (c): an explicit target. -/
def setPc (s : State) (a : Word) : State := { s with pc := a }

/-- Class (a): past this instruction. -/
def advance (s : State) : State := s.setPc (s.pc + 2)

/-- Class (b): past the next instruction too if the condition holds. -/
def skipIf (s : State) (c : Bool) : State := s.setPc (if c then s.pc + 4 else s.pc + 2)

/-! ### Memory (R62, R63) -/

/-- What MEM reads as where nothing is listed. -/
def bg (s : State) : Nat → Byte := unlisted s.params.fontBase

/-- MEM[a] without a range check. -/
def peek (s : State) (a : Nat) : Byte := s.mem.read s.bg a

/-- MEM[a] <- b without a range check. -/
def poke (s : State) (a : Nat) (b : Byte) : State := { s with mem := s.mem.write s.bg a b }

/-- `MemRead(addr, 1)` (R62): the byte, or the address that is out of range. -/
def memRead (s : State) (a : Nat) : Except Nat Byte :=
  if a > Config.maxAddr then .error a else .ok (s.peek a)

/-- `MemWrite(addr, 1, v)` (R62). -/
def memWrite (s : State) (a : Nat) (b : Byte) : Except Nat State :=
  if a > Config.maxAddr then .error a else .ok (s.poke a b)

/-- `n` reads in increasing address order from `base`; the first address out of range stops them (R63). -/
def readBytes (s : State) (base : Nat) : Nat → Except Nat (List Byte)
  | 0 => .ok []
  | n + 1 =>
    match s.memRead base with
    | .error a => .error a
    | .ok b =>
      match s.readBytes (base + 1) n with
      | .error a => .error a
      | .ok bs => .ok (b :: bs)

/-- Writes in increasing address order from `base`; at the first address out of range no byte is written (R9, R63). -/
def writeBytes (s : State) (base : Nat) : List Byte → Except Nat State
  | [] => .ok s
  | b :: bs =>
    match s.memWrite base b with
    | .error a => .error a
    | .ok t => t.writeBytes (base + 1) bs

/-- Fetch (R90): the word at PC, high byte first (R64), or the address that is out of range. -/
def fetch (s : State) : Except Nat Word :=
  match s.memRead s.pc.toNat with
  | .error a => .error a
  | .ok hi =>
    match s.memRead (s.pc.toNat + 1) with
    | .error a => .error a
    | .ok lo => .ok (wordOfBytes hi lo)

/-! ### The call stack (R24) -/

/-- STACK[SP] <- a; SP <- SP + 1, for a stack that is not full. -/
def push (s : State) (a : Word) (h : s.sp.val < 16) : State :=
  { s with stack := s.stack.set s.sp.val a, sp := ⟨s.sp.val + 1, by omega⟩ }

/-- STACK[SP - 1], for a stack that is not empty. -/
def top (s : State) (_h : 0 < s.sp.val) : Word := s.stack[s.sp.val - 1]

/-- SP <- SP - 1; the entry popped is not cleared (R121). -/
def pop (s : State) : State := { s with sp := ⟨s.sp.val - 1, by omega⟩ }

/-! ### The random source (R56) -/

/-- The value the next draw gives. -/
def nextRnd (s : State) : Byte := Config.rnd8 s.rndDraws

/-- Take that value from the source. -/
def drawn (s : State) : State := { s with rndDraws := s.rndDraws + 1 }

/-! ### Waiting for a key (R212, R213) -/

/-- KEY_PREV <- KEY: this poll becomes the previous one. -/
def latchKeys (s : State) : State := { s with keyPrev := s.key }

/-- WAIT_X <- x; RUN <- Running.WaitingForKey. -/
def enterWait (s : State) (x : RegIdx) : State := { s with waitX := x, run := .waitingForKey }

/-- RUN <- r (R40). -/
def setRun (s : State) (r : RunState) : State := { s with run := r }

/-! ### Faults (R253) and initialization (R280) -/

/-- Fault entry and the halt (R253): FAULT records the kind, the PC of the faulting instruction, the word and the
address; RUN becomes Halted; nothing else changes. -/
def raise (s : State) (kind : FaultKind) (opcode : Option Word) (addr : Option Nat) : State :=
  { s with faultRec := some ⟨kind, s.pc, opcode, addr⟩, run := .halted }

/-- Initialization (R280). KEY is the host's and stays; RUN is set by what re-runs initialization (R282). The draws
already taken stay taken, and the parameters stay (log entries 3 and 4). -/
def reinit (s : State) : State :=
  { s with
    v := .replicate 16 0
    i := 0
    pc := BitVec.ofNat 16 Config.programBase
    sp := 0
    stack := .replicate 16 0
    mem := []
    dt := 0
    st := 0
    disp := .replicate 32 0
    keyPrev := 0
    waitX := 0
    faultRec := none }

end State

/-- An instruction that raises a fault: the halt of R253, with the instruction's own word as the opcode (R41). -/
def raiseIn (i : Instr) (kind : FaultKind) (addr : Option Nat) (s : State) : Result :=
  .next (s.raise kind (some (encode i)) addr)

end Sys2Proof.Machine
end

