-- ==== Sys2Proof/Machine/Operands.lean ====
section
/-! DEFINITION. The operand forms: immediates (R95), the address I plus an offset (45_index_memory.md), the register
range V0..Vx (R238, R240), the shift operand (R169, R171), the key index (R144), the font glyph (R234), the decimal
digits (R236). -/
namespace Sys2Proof.Machine

/-- `zext_16(nnn)` (R95). -/
def zext16 (nnn : Addr12) : Word := nnn.setWidth 16

namespace State

/-- The address an access through I starts at (R236, R238, R240, R192): all 16 bits of I, with no wrap (R62). -/
def indexAddr (s : State) : Nat := s.i.toNat

/-- The value SHR and SHL shift: V[x], or V[y] with SHIFT_SOURCE = vy (R12, R169, R171). -/
def shiftOperand (s : State) (x y : RegIdx) : Byte :=
  match s.params.shiftSource with
  | .vx => s.reg x
  | .vy => s.reg y

/-- The key SKP and SKNP name: V[x], if that is the index of a key (R144). -/
def keyOperand (s : State) (x : RegIdx) : Option Nat :=
  if (s.reg x).toNat > 0xF then none else some (s.reg x).toNat

/-- `FONT_BASE + 5 * V[x]`, with no masking of V[x] (R234). -/
def glyphAddr (s : State) (x : RegIdx) : Word :=
  BitVec.ofNat 16 (s.params.fontBase.val + Config.glyphBytes * (s.reg x).toNat)

/-- `zext_16(nnn) + V[0]`, a 16-bit sum (R125). -/
def offsetTarget (s : State) (nnn : Addr12) : Word := BitVec.ofNat 16 (nnn.toNat + (s.reg 0).toNat)

/-- V[0], ..., V[x], in that order (R238). -/
def regsUpTo (s : State) (x : RegIdx) : List Byte := s.v.toList.take (x.val + 1)

/-- V[j] <- b, V[j+1] <- the next byte, and so on (R240). -/
def loadRegs (s : State) (j : Nat) : List Byte → State
  | [] => s
  | b :: bs => State.loadRegs { s with v := s.v.setIfInBounds j b } (j + 1) bs

/-- I after LD [I],Vx and LD Vx,[I]: unchanged, or past the bytes with MEM_INCREMENTS_I = true (R12, R238, R240). -/
def stepIndex (s : State) (x : RegIdx) : State :=
  if s.params.memIncrementsI then s.setI (s.i + BitVec.ofNat 16 (x.val + 1)) else s

end State

/-- The hundreds, tens and ones digit of a byte (R236). -/
def bcdDigits (b : Byte) : List Byte :=
  [BitVec.ofNat 8 (b.toNat / 100), BitVec.ofNat 8 (b.toNat / 10 % 10), BitVec.ofNat 8 (b.toNat % 10)]

end Sys2Proof.Machine
end

