-- ==== Sys2Proof/Machine/Flags.lean ====
section
/-! DEFINITION. The values VF takes (R174) and the order of an instruction's two writes to V[x] and VF (R160, R12). -/
namespace Sys2Proof.Machine

/-- A flag as the byte VF holds. -/
def flagByte (c : Bool) : Byte := if c then 1 else 0

/-- ADD Vx,Vy: the sum is above 255 (R167). -/
def carry (a b : Byte) : Bool := decide (a.toNat + b.toNat > 255)

/-- SUB and SUBN: `a - b` needs no borrow; equal operands need none (R168, R170, R175). -/
def noBorrow (a b : Byte) : Bool := decide (a.toNat ≥ b.toNat)

/-- SHR: the bit shifted out, bit 0 (R169). -/
def outRight (a : Byte) : Bool := a.getLsbD 0

/-- SHL: the bit shifted out, bit 7 (R171). -/
def outLeft (a : Byte) : Bool := a.getLsbD 7

/-- The two writes of ADD Vx,Vy, SUB, SUBN, SHR and SHL: result first and flag last, or the other way with
VF_WRITE_ORDER = result_last (R160, R12). -/
def State.writeResultFlag (s : State) (x : RegIdx) (result : Byte) (flag : Bool) : State :=
  match s.params.vfWriteOrder with
  | .flagLast => (s.setReg x result).setReg 15 (flagByte flag)
  | .resultLast => (s.setReg 15 (flagByte flag)).setReg x result

end Sys2Proof.Machine
end

