-- ==== Sys2Proof/Machine/Alu.lean ====
section
/-! DEFINITION. Register loads, arithmetic, logic, shifts and the random byte (R160 to R176). Results are computed on
naturals and reduced modulo 256 (R172). -/
namespace Sys2Proof.Machine

/-- `(a + b) mod 256` (R162, R167). -/
def addMod (a b : Byte) : Byte := BitVec.ofNat 8 (a.toNat + b.toNat)

/-- `(a - b) mod 256` (R168, R170). -/
def subMod (a b : Byte) : Byte := BitVec.ofNat 8 (a.toNat + 256 - b.toNat)

/-- `a >> 1` (R169). -/
def shiftRight1 (a : Byte) : Byte := BitVec.ofNat 8 (a.toNat / 2)

/-- `(a << 1) mod 256` (R171). -/
def shiftLeft1 (a : Byte) : Byte := BitVec.ofNat 8 (a.toNat * 2)

/-- An instruction that writes V[x] and nothing else, then passes on. -/
def writeVx (x : RegIdx) (b : Byte) (s : State) : Result := .next (s.setReg x b).advance

/-- An instruction that writes V[x] and VF (R160), then passes on. -/
def writeVxVf (x : RegIdx) (b : Byte) (flag : Bool) (s : State) : Result :=
  .next (s.writeResultFlag x b flag).advance

/-- R161: LD Vx, kk. -/
def execLdVxKk (x : RegIdx) (kk : Byte) (s : State) : Result := writeVx x kk s

/-- R162: ADD Vx, kk writes no flag. -/
def execAddVxKk (x : RegIdx) (kk : Byte) (s : State) : Result := writeVx x (addMod (s.reg x) kk) s

/-- R163: LD Vx, Vy. -/
def execLdVxVy (x y : RegIdx) (s : State) : Result := writeVx x (s.reg y) s

/-- R164: OR Vx, Vy writes no flag. -/
def execOrVxVy (x y : RegIdx) (s : State) : Result := writeVx x (s.reg x ||| s.reg y) s

/-- R165: AND Vx, Vy writes no flag. -/
def execAndVxVy (x y : RegIdx) (s : State) : Result := writeVx x (s.reg x &&& s.reg y) s

/-- R166: XOR Vx, Vy writes no flag. -/
def execXorVxVy (x y : RegIdx) (s : State) : Result := writeVx x (s.reg x ^^^ s.reg y) s

/-- R167: ADD Vx, Vy; VF is the carry. -/
def execAddVxVy (x y : RegIdx) (s : State) : Result :=
  writeVxVf x (addMod (s.reg x) (s.reg y)) (carry (s.reg x) (s.reg y)) s

/-- R168: SUB Vx, Vy; VF is NOT borrow. -/
def execSub (x y : RegIdx) (s : State) : Result :=
  writeVxVf x (subMod (s.reg x) (s.reg y)) (noBorrow (s.reg x) (s.reg y)) s

/-- R170: SUBN Vx, Vy; VF is NOT borrow. -/
def execSubn (x y : RegIdx) (s : State) : Result :=
  writeVxVf x (subMod (s.reg y) (s.reg x)) (noBorrow (s.reg y) (s.reg x)) s

/-- R169: SHR Vx; VF is the bit shifted out. -/
def execShr (x y : RegIdx) (s : State) : Result :=
  writeVxVf x (shiftRight1 (s.shiftOperand x y)) (outRight (s.shiftOperand x y)) s

/-- R171: SHL Vx; VF is the bit shifted out. -/
def execShl (x y : RegIdx) (s : State) : Result :=
  writeVxVf x (shiftLeft1 (s.shiftOperand x y)) (outLeft (s.shiftOperand x y)) s

/-- RND Vx, kk with the value `r` of its draw: `V[x] <- r AND kk` (R176). -/
def rndWith (r : Byte) (x : RegIdx) (kk : Byte) (s : State) : Result := writeVx x (r &&& kk) s.drawn

/-- R176: RND Vx, kk takes one value from the random source (R56). -/
def execRnd (x : RegIdx) (kk : Byte) (s : State) : Result := rndWith s.nextRnd x kk s

end Sys2Proof.Machine
end

