-- ==== Sys2Proof/Machine/ControlFlow.lean ====
section
/-! DEFINITION. Control transfer: SYS, RET, JP, CALL, JP V0 (R120 to R125). -/
namespace Sys2Proof.Machine

/-- R120: SYS nnn only advances PC; with SYS_MODE = fault it raises UnknownOpcode (R12). -/
def execSys (nnn : Addr12) (s : State) : Result :=
  match s.params.sysMode with
  | .nop => .next s.advance
  | .fault => raiseIn (.sys nnn) .unknownOpcode none s

/-- R121: RET. -/
def execRet (s : State) : Result :=
  if h : 0 < s.sp.val then .next ((s.pop).setPc (s.top h))
  else raiseIn .ret .stackUnderflow none s

/-- R122: JP nnn. -/
def execJp (nnn : Addr12) (s : State) : Result := .next (s.setPc (zext16 nnn))

/-- R123: CALL nnn pushes the address of the instruction after it. -/
def execCall (nnn : Addr12) (s : State) : Result :=
  if h : s.sp.val < 16 then .next ((s.push (s.pc + 2) h).setPc (zext16 nnn))
  else raiseIn (.call nnn) .stackOverflow none s

/-- R125: JP V0, nnn. -/
def execJpV0Nnn (nnn : Addr12) (s : State) : Result := .next (s.setPc (s.offsetTarget nnn))

end Sys2Proof.Machine
end

