-- ==== Sys2Proof/Machine/Display.lean ====
section
/-! DEFINITION. The display and the sprite blitter: CLS, DRW (R190 to R192). -/
namespace Sys2Proof.Machine

/-- The pixel at row `y` and column `x`. -/
def Grid.at (d : Grid) (y : Fin 32) (x : Fin 64) : Bool := d[y].getLsbD x

/-- The grid with one pixel inverted. -/
def Grid.toggle (d : Grid) (y : Fin 32) (x : Fin 64) : Grid := d.set y (d[y] ^^^ BitVec.twoPow 64 x)

/-- What the loop of R192 carries: the grid and the collision bit `c`. -/
abbrev Blit := Grid × Bool

/-- One 1 bit of a sprite row meets one pixel: a collision if the pixel is set, and the pixel inverts (R192). -/
def blitPixel (p : Blit) (y : Fin 32) (x : Fin 64) : Blit := (p.1.toggle y x, p.2 || p.1.at y x)

/-- One sprite row: bit 7 is the leftmost of its 8 pixels (R191), and columns wrap modulo 64 (R192). -/
def blitRow (p : Blit) (row : Byte) (y : Fin 32) (x0 : Nat) : Blit :=
  (List.range 8).foldl (fun q b => if row.getLsbD (7 - b) then blitPixel q y (Fin.ofNat 64 (x0 + b)) else q) p

/-- The rows of a sprite, downward from row `y0`; rows wrap modulo 32 (R192). -/
def blitRows (p : Blit) (y0 x0 : Nat) : List Byte → Blit
  | [] => p
  | row :: rows => blitRows (blitRow p row (Fin.ofNat 32 y0) x0) (y0 + 1) x0 rows

/-- R190: CLS. -/
def execCls (s : State) : Result := .next (s.setDisp (.replicate 32 0)).advance

/-- R192: DRW Vx, Vy, n. All the sprite's bytes are read before anything is written (R9, R63); the start position is
V[x] mod 64, V[y] mod 32; VF is the collision bit, written last. -/
def execDrw (x y : RegIdx) (n : Nibble) (s : State) : Result :=
  match s.readBytes s.indexAddr n.toNat with
  | .error a => raiseIn (.drw x y n) .addressOutOfRange (some a) s
  | .ok rows =>
    let p := blitRows (s.disp, false) ((s.reg y).toNat % 32) ((s.reg x).toNat % 64) rows
    .next ((s.setDisp p.1).setReg 15 (flagByte p.2)).advance

end Sys2Proof.Machine
end

