-- ==== Sys2Proof/Machine/IndexMemory.lean ====
section
/-! DEFINITION. The index register and memory transfers: LD I, ADD I, LD F, LD B, LD [I],Vx and LD Vx,[I] (R230 to
R240). -/
namespace Sys2Proof.Machine

/-- R230: LD I, nnn. -/
def execLdINnn (nnn : Addr12) (s : State) : Result := .next (s.setI (zext16 nnn)).advance

/-- R232: ADD I, Vx, modulo 0x10000; VF is not written. -/
def execAddIVx (x : RegIdx) (s : State) : Result :=
  .next (s.setI (BitVec.ofNat 16 (s.i.toNat + (s.reg x).toNat))).advance

/-- R234: LD F, Vx. -/
def execLdFVx (x : RegIdx) (s : State) : Result := .next (s.setI (s.glyphAddr x)).advance

/-- R236: LD B, Vx stores the three decimal digits at I, I+1, I+2, or none of them. -/
def execLdBVx (x : RegIdx) (s : State) : Result :=
  match s.writeBytes s.indexAddr (bcdDigits (s.reg x)) with
  | .error a => raiseIn (.ldBVx x) .addressOutOfRange (some a) s
  | .ok t => .next t.advance

/-- R238: LD [I], Vx stores V0..Vx from I up, or nothing. -/
def execLdMemIVx (x : RegIdx) (s : State) : Result :=
  match s.writeBytes s.indexAddr (s.regsUpTo x) with
  | .error a => raiseIn (.ldMemIVx x) .addressOutOfRange (some a) s
  | .ok t => .next (t.stepIndex x).advance

/-- R240: LD Vx, [I] loads V0..Vx from I up, or nothing. -/
def execLdVxMemI (x : RegIdx) (s : State) : Result :=
  match s.readBytes s.indexAddr (x.val + 1) with
  | .error a => raiseIn (.ldVxMemI x) .addressOutOfRange (some a) s
  | .ok bs => .next ((s.loadRegs 0 bs).stepIndex x).advance

end Sys2Proof.Machine
end

