-- ==== Sys2Proof/Machine/Skips.lean ====
section
/-! DEFINITION. Conditional skips: SE, SNE, SKP, SKNP (R140 to R145). -/
namespace Sys2Proof.Machine

/-- R140: SE Vx, kk. -/
def execSeVxKk (x : RegIdx) (kk : Byte) (s : State) : Result := .next (s.skipIf (s.reg x == kk))

/-- R141: SNE Vx, kk. -/
def execSneVxKk (x : RegIdx) (kk : Byte) (s : State) : Result := .next (s.skipIf (s.reg x != kk))

/-- R142: SE Vx, Vy. -/
def execSeVxVy (x y : RegIdx) (s : State) : Result := .next (s.skipIf (s.reg x == s.reg y))

/-- R143: SNE Vx, Vy. -/
def execSneVxVy (x y : RegIdx) (s : State) : Result := .next (s.skipIf (s.reg x != s.reg y))

/-- A key skip: KeyIndexOutOfRange when V[x] names no key, else a skip on the key's state (R144, R145). -/
def skipOnKey (i : Instr) (x : RegIdx) (down : Bool) (s : State) : Result :=
  match s.keyOperand x with
  | none => raiseIn i .keyIndexOutOfRange none s
  | some k => .next (s.skipIf (s.keyDown k == down))

/-- R144: SKP Vx. -/
def execSkp (x : RegIdx) (s : State) : Result := skipOnKey (.skp x) x true s

/-- R145: SKNP Vx. -/
def execSknp (x : RegIdx) (s : State) : Result := skipOnKey (.sknp x) x false s

end Sys2Proof.Machine
end

