-- ==== Sys2Proof/Machine/TimersKeys.lean ====
section
/-! DEFINITION. Timers and key input: LD Vx,DT; LD DT,Vx; LD ST,Vx; LD Vx,K and its poll; the tick (R210 to R220). -/
namespace Sys2Proof.Machine

/-- R210: LD Vx, DT. -/
def execLdVxDt (x : RegIdx) (s : State) : Result := .next (s.setReg x s.dt).advance

/-- R216: LD DT, Vx. -/
def execLdDtVx (x : RegIdx) (s : State) : Result := .next (s.setDt (s.reg x)).advance

/-- R217: LD ST, Vx. -/
def execLdStVx (x : RegIdx) (s : State) : Result := .next (s.setSt (s.reg x)).advance

/-- R212: LD Vx, K enters the wait; the keys already down are its poll baseline, and PC stays. -/
def execLdVxK (x : RegIdx) (s : State) : Result := .next (s.latchKeys.enterWait x)

/-- The lowest key that is down now and was not down at the previous poll (R213). -/
def State.newKey (s : State) : Option Nat :=
  (List.range 16).find? fun k => (s.key &&& ~~~s.keyPrev).getLsbD k

/-- R213: one poll of a pending wait. -/
def poll (s : State) : State :=
  match s.newKey with
  | none => s.latchKeys
  | some k => ((s.setReg s.waitX (BitVec.ofNat 8 k)).latchKeys.setRun .normal).advance

/-- A timer one tick later: down by one, with a floor at 0 (R220). -/
def tickDown (b : Byte) : Byte := if b.toNat > 0 then b - 1 else b

/-- R220: TICK, in every run-state. -/
def tick (s : State) : State := (s.setDt (tickDown s.dt)).setSt (tickDown s.st)

end Sys2Proof.Machine
end

