-- ==== Sys2Proof/Machine/Step.lean ====
section
/-! DEFINITION. The STEP transaction (R51) and the placing of an instruction for it. -/
namespace Sys2Proof.Machine

/-- One fetch-decode-execute cycle of Running.Normal (R90 to R92), the phases checked in the order of R252. -/
def cycle (s : State) : Host.Outcome State Fault Refusal :=
  match s.fetch with
  | .error a => .next (s.raise .addressOutOfRange none (some a))
  | .ok op =>
    match decode op with
    | .error _ => .next (s.raise .unknownOpcode (some op) none)
    | .ok i => exec i s

/-- STEP (R51): one cycle, one poll of a pending wait (R213), or nothing while Idle or Halted. -/
def step (s : State) : Host.Outcome State Fault Refusal :=
  match s.run with
  | .idle => .next s
  | .normal => cycle s
  | .waitingForKey => .next (poll s)
  | .halted => .next s

/-- The word `w` where the next step fetches: its two bytes at PC and PC + 1 (R64, R90) and RUN = Running.Normal,
which only a LOAD gives a machine that is Idle (log entry 6). -/
def State.withFetchWord (s : State) (nbits w : Nat) : State :=
  ((s.poke s.pc.toNat (hiByte (tableWord nbits w))).poke (s.pc.toNat + 1) (loByte (tableWord nbits w))).setRun .normal

end Sys2Proof.Machine
end

