-- ==== Sys2Proof/Machine/Transactions.lean ====
section
/-! DEFINITION. The block's interface (R50): the six transactions of the host, what each answers, and a run under a
schedule of them (R58, HOST_SCHEDULE of R12). -/
namespace Sys2Proof.Machine

/-- What STEP reports (R50, R51). -/
inductive StepStatus where
  | executed
  | waiting
  | faulted (record : Option FaultRecord)
  | notRunning
deriving DecidableEq, Repr

/-- A host call (R50). -/
inductive Transaction where
  | load (bytes : List Byte)
  | step
  | tick
  | setKey (k : Nat) (pressed : Bool)
  | snapshot
  | soundActive
deriving DecidableEq, Repr

/-- What a host call returns (R50). -/
inductive Response where
  | none
  | ok
  | programTooLarge
  | stepped (status : StepStatus)
  | grid (d : Grid)
  | bit (b : Bool)
deriving DecidableEq, Repr

/-- The status of a STEP that went from `s` to `t` (R51). -/
def stepStatus (s t : State) : StepStatus :=
  match s.run with
  | .idle => .notRunning
  | .halted => .faulted s.faultRec
  | .normal | .waitingForKey =>
    match t.run with
    | .waitingForKey => .waiting
    | .halted => .faulted t.faultRec
    | .idle | .normal => .executed

/-- LOAD (R282): an image that is too long makes the block Idle and changes nothing else; any other re-runs
initialization (R280), is placed at 0x200 and runs. -/
def load (bytes : List Byte) (s : State) : State × Response :=
  if bytes.length > Config.maxProgram then (s.setRun .idle, .programTooLarge)
  else
    let t := s.reinit
    (({ t with mem := t.mem.writeAll t.bg Config.programBase bytes } : State).setRun .normal, .ok)

/-- SET_KEY (R53): KEY[k] <- p; an index above 15 has no effect. -/
def setKey (k : Nat) (pressed : Bool) (s : State) : State :=
  if k > 15 then s
  else
    { s with key := if pressed then s.key ||| BitVec.twoPow 16 k else s.key &&& ~~~BitVec.twoPow 16 k }

/-- SOUND_ACTIVE (R55): ST > 0. -/
def soundActive (s : State) : Bool := decide (s.st.toNat > 0)

/-- One transaction (R50): the state after it and what the host is told. -/
def transact (tr : Transaction) (s : State) : Host.Outcome (State × Response) Fault Refusal :=
  match tr with
  | .load bytes => .next (load bytes s)
  | .step =>
    match Sys2Proof.Machine.step s with
    | .next t => .next (t, .stepped (stepStatus s t))
    | .fault r => .fault r
    | .refused r => .refused r
  | .tick => .next (Sys2Proof.Machine.tick s, .none)
  | .setKey k pressed => .next (Sys2Proof.Machine.setKey k pressed s, .none)
  | .snapshot => .next (s, .grid s.disp)
  | .soundActive => .next (s, .bit (Sys2Proof.Machine.soundActive s))

/-- The state a transaction leads to, without its answer. -/
def afterTransaction (tr : Transaction) (s : State) : Host.Outcome State Fault Refusal :=
  match transact tr s with
  | .next (t, _) => .next t
  | .fault r => .fault r
  | .refused r => .refused r

/-! ### Schedules (HOST_SCHEDULE of R12) -/

/-- A host schedule (R12): any finite or infinite sequence of transactions. It is the host's input and no part of
State. -/
inductive Schedule where
  | finite (trs : List Transaction)
  | infinite (trs : Nat → Transaction)

/-- The transaction issued after `n` others, none when the schedule has ended. -/
def Schedule.nth (sch : Schedule) (n : Nat) : Option Transaction :=
  match sch with
  | .finite trs => trs[n]?
  | .infinite trs => some (trs n)

/-- The run of a schedule from `s` (R58): what its first `n` transactions lead to, for each `n`. The run of a finite
schedule stays where its last transaction left it (R285, log entry 11); the run of an infinite one never ends. -/
def Schedule.run (sch : Schedule) (s : State) : Nat → Host.Outcome State Fault Refusal
  | 0 => .next s
  | n + 1 =>
    match sch.run s n, sch.nth n with
    | .next t, some tr => afterTransaction tr t
    | r, _ => r

/-- The transactions of a finite schedule, one after another: where its run ends (R58). -/
def runSchedule : List Transaction → State → Host.Outcome State Fault Refusal
  | [], s => .next s
  | tr :: trs, s =>
    match afterTransaction tr s with
    | .next t => runSchedule trs t
    | .fault r => .fault r
    | .refused r => .refused r

end Sys2Proof.Machine
end

