-- ==== Sys2Proof/Safety.lean ====
section
/-! DEFINITION. The terms the statements use: what a step leaves unchanged, the invariant of the machine, which
instruction faults and with what record, and the pixels a sprite covers. None of them is used by the machine. -/
namespace Sys2Proof.Machine

/-! ### Frames -/

/-- One separately readable part of the state: a register, a stack entry, a byte of MEM, a pixel, and so on
(10_state.md section 10). -/
inductive Part where
  | v (x : RegIdx)
  | i
  | pc
  | sp
  | stack (k : Fin 16)
  | mem (a : Nat)
  | dt
  | st
  | pixel (y : Fin 32) (x : Fin 64)
  | key
  | keyPrev
  | waitX
  | run
  | fault
  | rndDraws
  | params
deriving DecidableEq, Repr

/-- The part reads the same in both states. -/
def Part.same (p : Part) (s t : State) : Prop :=
  match p with
  | .v x => t.reg x = s.reg x
  | .i => t.i = s.i
  | .pc => t.pc = s.pc
  | .sp => t.sp = s.sp
  | .stack k => t.stack[k] = s.stack[k]
  | .mem a => t.peek a = s.peek a
  | .dt => t.dt = s.dt
  | .st => t.st = s.st
  | .pixel y x => t.pixel y x = s.pixel y x
  | .key => t.key = s.key
  | .keyPrev => t.keyPrev = s.keyPrev
  | .waitX => t.waitX = s.waitX
  | .run => t.run = s.run
  | .fault => t.faultRec = s.faultRec
  | .rndDraws => t.rndDraws = s.rndDraws
  | .params => t.params = s.params

/-- Every part that `allowed` does not admit reads in `t` as it reads in `s`. -/
def onlyChanges (allowed : Part → Prop) (s t : State) : Prop := ∀ p, ¬ allowed p → p.same s t

/-! ### The invariant -/

/-- What R250 says a fault record holds: an AddressOutOfRange names an address above 0xFFF, and the other kinds name
none and always have the word fetched. -/
def FaultRecord.legal (r : FaultRecord) : Prop :=
  match r.kind with
  | .addressOutOfRange => ∃ a, r.addr = some a ∧ 0x1000 ≤ a ∧ a ≤ 0xFFFF
  | .unknownOpcode | .stackOverflow | .stackUnderflow | .keyIndexOutOfRange =>
    r.addr = none ∧ r.opcode ≠ none

/-- What holds of the machine at power-up and after every transaction. -/
structure State.Inv (s : State) : Prop where
  /-- Memory is in its canonical form and lists only addresses of MEM (R60). -/
  memWf : s.mem.wf s.bg
  /-- PC never passes 0x10FE (R23). -/
  pcBound : s.pc.toNat ≤ 0x10FE
  /-- A return address is at most 0x1000 (R123). -/
  stackBound : ∀ k : Fin 16, s.stack[k].toNat ≤ 0x1000
  /-- A pending wait holds the address of an instruction that was fetched (R212, R90). -/
  waitPc : s.run = .waitingForKey → s.pc.toNat ≤ 0xFFE
  /-- An engine that runs has no fault on record (R41, R255). -/
  runningClean : s.run = .normal ∨ s.run = .waitingForKey → s.faultRec = none
  /-- A halted engine has a fault on record, with the PC it halted at (R253). -/
  haltedRecord : s.run = .halted → ∃ r, s.faultRec = some r ∧ r.pc = s.pc
  /-- A fault record is one R250 describes. -/
  recordLegal : ∀ r, s.faultRec = some r → r.legal

/-! ### Faults -/

/-- The lowest address out of range among the `n` addresses from `base` up, if there is one (R63). -/
def rangeFault (base n : Nat) : Option Nat :=
  if 0 < n ∧ base + n - 1 > 0xFFF then some (max base 0x1000) else none

/-- The execute-phase check of each instruction: the fault it raises and the address it reports (R250, R252). -/
def instrFault (i : Instr) (s : State) : Option (FaultKind × Option Nat) :=
  match i with
  | .sys _ => if s.params.sysMode = .fault then some (.unknownOpcode, none) else none
  | .ret => if s.sp.val = 0 then some (.stackUnderflow, none) else none
  | .call _ => if s.sp.val = 16 then some (.stackOverflow, none) else none
  | .skp x | .sknp x => if (s.reg x).toNat > 0xF then some (.keyIndexOutOfRange, none) else none
  | .drw _ _ n => (rangeFault s.i.toNat n.toNat).map fun a => (.addressOutOfRange, some a)
  | .ldBVx _ => (rangeFault s.i.toNat 3).map fun a => (.addressOutOfRange, some a)
  | .ldMemIVx x | .ldVxMemI x => (rangeFault s.i.toNat (x.val + 1)).map fun a => (.addressOutOfRange, some a)
  | .cls | .jp _ | .seVxKk _ _ | .sneVxKk _ _ | .seVxVy _ _ | .ldVxKk _ _ | .addVxKk _ _ | .ldVxVy _ _
  | .orVxVy _ _ | .andVxVy _ _ | .xorVxVy _ _ | .addVxVy _ _ | .sub _ _ | .shr _ _ | .subn _ _ | .shl _ _
  | .sneVxVy _ _ | .ldINnn _ | .jpV0Nnn _ | .rnd _ _ | .ldVxDt _ | .ldVxK _ | .ldDtVx _ | .ldStVx _ | .addIVx _
  | .ldFVx _ => none

/-- The fault of one cycle, checked in the order fetch, decode, execute (R252): its kind, the word and the address
recorded. -/
def cycleFault (s : State) : Option (FaultKind × Option Word × Option Nat) :=
  if s.pc.toNat > 0xFFF then some (.addressOutOfRange, none, some s.pc.toNat)
  else if s.pc.toNat = 0xFFF then some (.addressOutOfRange, none, some 0x1000)
  else
    let op := wordOfBytes (s.peek s.pc.toNat) (s.peek (s.pc.toNat + 1))
    match decode op with
    | .error _ => some (.unknownOpcode, some op, none)
    | .ok i => (instrFault i s).map fun f => (f.1, some op, f.2)

/-! ### The PC after an instruction -/

/-- PC plus `k`, on 16 bits (R93). -/
def pcPlus (s : State) (k : Nat) : Nat := (s.pc.toNat + k) % 0x10000

/-- PC after an instruction that raises no fault, by the classes of R93: (a) past it, (b) past the next one too if the
instruction's condition holds, (c) the instruction's target, (d) unchanged. -/
def pcAfter (i : Instr) (s : State) : Nat :=
  match i with
  | .seVxKk x kk => pcPlus s (if s.reg x = kk then 4 else 2)
  | .sneVxKk x kk => pcPlus s (if s.reg x = kk then 2 else 4)
  | .seVxVy x y => pcPlus s (if s.reg x = s.reg y then 4 else 2)
  | .sneVxVy x y => pcPlus s (if s.reg x = s.reg y then 2 else 4)
  | .skp x => pcPlus s (if s.keyDown (s.reg x).toNat then 4 else 2)
  | .sknp x => pcPlus s (if s.keyDown (s.reg x).toNat then 2 else 4)
  | .jp nnn | .call nnn => nnn.toNat
  | .jpV0Nnn nnn => nnn.toNat + (s.reg 0).toNat
  | .ret => (s.stack.toList.getD (s.sp.val - 1) 0).toNat
  | .ldVxK _ => s.pc.toNat
  | .sys _ | .cls | .ldVxKk _ _ | .addVxKk _ _ | .ldVxVy _ _ | .orVxVy _ _ | .andVxVy _ _ | .xorVxVy _ _
  | .addVxVy _ _ | .sub _ _ | .shr _ _ | .subn _ _ | .shl _ _ | .ldINnn _ | .rnd _ _ | .drw _ _ _ | .ldVxDt _
  | .ldDtVx _ | .ldStVx _ | .addIVx _ | .ldFVx _ | .ldBVx _ | .ldMemIVx _ | .ldVxMemI _ => pcPlus s 2

/-- `t` is `s` past an instruction whose destination is V[x] alone. -/
def onlyWritesVx (x : RegIdx) (s t : State) : Prop :=
  t.pc = s.pc + 2 ∧ onlyChanges (fun p => p = .pc ∨ p = .v x) s t

/-- `t` is `s` past an instruction that writes V[x] and VF (R21, R160). -/
def onlyWritesVxVf (x : RegIdx) (s t : State) : Prop :=
  t.pc = s.pc + 2 ∧ onlyChanges (fun p => p = .pc ∨ p = .v x ∨ p = .v 15) s t

/-! ### Sprites -/

/-- The sprite of `n` rows at I, drawn from the position V[x], V[y], has a 1 bit on the pixel at row `py` and column
`px` (R191, R192): the pixel is `b` columns right of the start, modulo 64, and `r` rows below it, modulo 32. -/
def State.spriteBit (s : State) (x y : RegIdx) (n : Nibble) (py : Fin 32) (px : Fin 64) : Bool :=
  let r := (py.val + 32 - (s.reg y).toNat % 32) % 32
  let b := (px.val + 64 - (s.reg x).toNat % 64) % 64
  decide (r < n.toNat) && decide (b < 8) && (s.peek (s.i.toNat + r)).getLsbD (7 - b)

end Sys2Proof.Machine
end

