-- ==== Sys2Proof/Certificates/Slice0/Obligations.lean ====
section
/-! DEFINITION. The statements: what each instruction, each transaction and the whole machine does, from the numbered
rules of the spec. -/

open Sys2Proof Sys2Proof.Machine

/-! ### Encoding -/

/-- Decoding the word of any well-formed instruction gives the instruction back, with every operand (R91, R94, R97,
R99; the patterns are the spec's own choice, D37). -/
def Obligations.DecodeInvertsEncode : Prop :=
  ∀ i : Instr, i.wellFormed = true → decode (encode i) = .ok i

/-- A word that decodes is the word of the instruction it decodes to: no bit of it is dropped (R91, R96, R97). -/
def Obligations.EncodeInvertsDecode : Prop :=
  ∀ (op : Word) (i : Instr), decode op = .ok i → encode i = op ∧ i.wellFormed = true

/-- A word decodes to a row of R97 that its match and mask admit, no other row but SYS admits it, and SYS gives way
(R99); a word that decodes to nothing is admitted by no row (R91, R98). -/
def Obligations.DecodeFollowsOpcodeMap : Prop :=
  ∀ op : Word,
    (∀ i, decode op = .ok i → (rowOf i).covers op = true ∧
      ∀ r ∈ opcodeMap, (rowOf r).covers op = true → rowOf r = rowOf i ∨ rowOf r = rowOf (.sys 0)) ∧
    (∀ e, decode op = .error e → ∀ r ∈ opcodeMap, (rowOf r).covers op = false)

/-- The words R98 lists, and no others, are unknown encodings. -/
def Obligations.UnknownEncodingsAreListed : Prop :=
  ∀ op : Word, decode op = .error (.unknownOpcode op) ↔
    (op.toNat / 4096 = 0x5 ∧ op.toNat % 16 ≠ 0) ∨
    (op.toNat / 4096 = 0x8 ∧ op.toNat % 16 ∈ [0x8, 0x9, 0xA, 0xB, 0xC, 0xD, 0xF]) ∨
    (op.toNat / 4096 = 0x9 ∧ op.toNat % 16 ≠ 0) ∨
    (op.toNat / 4096 = 0xE ∧ op.toNat % 256 ∉ [0x9E, 0xA1]) ∨
    (op.toNat / 4096 = 0xF ∧ op.toNat % 256 ∉ [0x07, 0x0A, 0x15, 0x18, 0x1E, 0x29, 0x33, 0x55, 0x65])

/-- Words of the vectors V-DEC of 95_test_vectors.md. -/
def Obligations.VectorWordsDecode : Prop :=
  decode 0x0000#16 = .ok (.sys 0x000#12) ∧ decode 0x00E0#16 = .ok .cls ∧ decode 0x00EE#16 = .ok .ret ∧
  decode 0x01E0#16 = .ok (.sys 0x1E0#12) ∧ decode 0x5120#16 = .ok (.seVxVy 1 2) ∧
  decode 0x5121#16 = .error (.unknownOpcode 0x5121#16) ∧ decode 0x812E#16 = .ok (.shl 1 2) ∧
  decode 0xE19E#16 = .ok (.skp 1) ∧ decode 0xF130#16 = .error (.unknownOpcode 0xF130#16) ∧
  decode 0xFF65#16 = .ok (.ldVxMemI 15)

/-! ### Memory -/

/-- The two memory primitives of R62: above 0xFFF both report the address; in range a read gives the byte, and a
write changes that byte alone. (Canonical memory is the premise: Obligations.StepKeepsInvariant.) -/
def Obligations.MemoryPrimitives : Prop :=
  ∀ (s : State) (a : Nat) (b : Byte), s.mem.wf s.bg →
    (a > 0xFFF → s.memRead a = .error a ∧ s.memWrite a b = .error a) ∧
    (a ≤ 0xFFF → s.memRead a = .ok (s.peek a) ∧
      ∃ t, s.memWrite a b = .ok t ∧ t.memRead a = .ok b ∧ onlyChanges (fun p => p = .mem a) s t)

/-- Memories in the canonical form that read alike are equal as data (the model's own representation, log entry 5). -/
def Obligations.CanonicalMemoriesAreEqual : Prop :=
  ∀ (bg : Nat → Byte) (m m' : Memory), m.wf bg → m'.wf bg → (∀ a, m.read bg a = m'.read bg a) → m = m'

/-- A store is seen by every later fetch (R73): after LD [I],Vx, fetching at two stored addresses gives the word made
of the two registers stored there, the lower address high (R64). -/
def Obligations.StoreSeenByFetch : Prop :=
  ∀ (s t u : State) (x : RegIdx) (j : Fin 15), s.mem.wf s.bg → s.i.toNat + x.val ≤ 0xFFF → j.val + 1 ≤ x.val →
    exec (.ldMemIVx x) s = .next t → u.mem = t.mem → u.params = t.params → u.pc.toNat = s.indexAddr + j.val →
    u.fetch = .ok (wordOfBytes (s.reg ⟨j.val, by omega⟩) (s.reg ⟨j.val + 1, by omega⟩))

/-! ### The step -/

/-- Fetch (R90): it succeeds exactly when PC <= 0xFFE and then gives the word high byte first; otherwise the step
puts the fault on record, with the address that failed and no opcode. (What else such a step leaves alone:
Obligations.CycleFaultsExactly.) -/
def Obligations.FetchReadsWordAtPc : Prop :=
  ∀ s : State, s.run = .normal →
    ((∃ op, s.fetch = .ok op) ↔ s.pc.toNat ≤ 0xFFE) ∧
    (∀ op, s.fetch = .ok op → op.toNat = (s.peek s.pc.toNat).toNat * 256 + (s.peek (s.pc.toNat + 1)).toNat) ∧
    (s.pc.toNat > 0xFFF →
      ∃ t, step s = .next t ∧ t.faultRec = some ⟨.addressOutOfRange, s.pc, none, some s.pc.toNat⟩) ∧
    (s.pc.toNat = 0xFFF →
      ∃ t, step s = .next t ∧ t.faultRec = some ⟨.addressOutOfRange, s.pc, none, some (s.pc.toNat + 1)⟩)

/-- When the bytes at PC decode to an instruction, a step of a running engine is that instruction's execution. -/
def Obligations.StepRunsDecodedInstruction : Prop :=
  ∀ (s : State) (op : Word) (i : Instr), s.run = .normal → s.fetch = .ok op → decode op = .ok i →
    step s = exec i s

/-- A word that matches no row halts the engine with that word on record and changes nothing else (R98, R253). -/
def Obligations.StepHaltsOnUnknownWord : Prop :=
  ∀ (s : State) (op : Word) (e : DecodeError), s.run = .normal → s.fetch = .ok op → decode op = .error e →
    e = .unknownOpcode op ∧
    step s = .next { s with faultRec := some ⟨.unknownOpcode, s.pc, some op, none⟩, run := .halted }

/-- A word placed for the next fetch (the model's own loader, log entry 6) is the word the next step fetches and
runs. -/
def Obligations.PlacedWordIsFetched : Prop :=
  ∀ (s : State) (w : Nat), s.mem.wf s.bg → s.pc.toNat ≤ 0xFFE → w < 65536 →
    (s.withFetchWord 16 w).fetch = .ok (BitVec.ofNat 16 w) ∧
    ∀ i, decodeTableWord 16 w = some i → step (s.withFetchWord 16 w) = exec i (s.withFetchWord 16 w)

/-- Every instruction, in every state, answers a next state, and so does every step: no meaning refuses or stops. -/
def Obligations.EveryStepHasNextState : Prop :=
  (∀ (i : Instr) (s : State), ∃ t, exec i s = .next t) ∧ ∀ s : State, ∃ t, step s = .next t

/-- PC after an instruction that raises no fault is given by its class of R93, on 16 bits with no masking; a PC above
0xFFE is held and fails at the next fetch. -/
def Obligations.PcFollowsItsClass : Prop :=
  (∀ (i : Instr) (s t : State), instrFault i s = none → exec i s = .next t → t.pc.toNat = pcAfter i s) ∧
  ∀ u : State, u.pc.toNat > 0xFFE → ∃ a, u.fetch = .error a

/-- A cycle faults exactly in the cases R250 lists, in the order of R252, and on SYS with SYS_MODE = fault (R12; the
phase is the model's reading, log entry 14), with the record it describes; the state is otherwise as before the
instruction (R253), and a cycle that does not fault leaves the engine running or waiting. The spec's own choices: D3,
D15, D20, D29, D30. -/
def Obligations.CycleFaultsExactly : Prop :=
  ∀ s t : State, s.run = .normal → step s = .next t →
    (∀ k o a, cycleFault s = some (k, o, a) →
      t = { s with faultRec := some ⟨k, s.pc, o, a⟩, run := .halted }) ∧
    (cycleFault s = none → t.run ≠ .halted ∧ t.faultRec = s.faultRec)

/-! ### Reset, LOAD and the other transactions -/

/-- The state at power-up (R280, R281): registers, timers, pixels, keys and stack 0, PC = 0x200, the font of R27 at
FONT_BASE = 0x050 and 0 in every other byte, RUN = Idle, no fault (the entries of an empty stack, KEY, KEY_PREV, WAIT_X and
RUN are the spec's own choices D18, D21, D23, D25; the parameters are the defaults of R12, log entry 4). -/
def Obligations.ResetState : Prop :=
  (∀ x, State.reset.reg x = 0) ∧ State.reset.i = 0 ∧ State.reset.pc = 0x200#16 ∧ State.reset.sp = 0 ∧
  (∀ k : Fin 16, State.reset.stack[k] = 0) ∧ State.reset.dt = 0 ∧ State.reset.st = 0 ∧
  (∀ y x, State.reset.pixel y x = false) ∧ State.reset.key = 0 ∧ State.reset.keyPrev = 0 ∧
  State.reset.waitX = 0 ∧ State.reset.run = .idle ∧ State.reset.faultRec = none ∧
  State.reset.params = ⟨0x050, .nop, .flagLast, .vx, false⟩ ∧
  (∀ d r : Nat, d < 16 → r < 5 → State.reset.peek (0x050 + 5 * d + r) = fontRow d r) ∧
  (∀ a : Nat, a < 0x050 ∨ 0x09F < a → State.reset.peek a = 0)

/-- The invariant holds at power-up. Its canonical memory is the model's own representation (log entry 5). -/
def Obligations.ResetMeetsInvariant : Prop := State.reset.Inv

/-- Every step keeps the invariant: canonical memory (the model's own representation, log entry 5), PC at most 0x10FE
and return addresses at most 0x1000 (R23, R123; the spec's own choices D11, D31), no fault on record while running and
a legal one once halted (R41, R250, R253). -/
def Obligations.StepKeepsInvariant : Prop :=
  ∀ s t : State, s.Inv → step s = .next t → t.Inv

/-- Every transaction of the host keeps the invariant, whatever it is and whatever it carries (R50, R58). Canonical
memory is the model's own representation (log entry 5); a STEP rests on the spec's own choices D11 and D31, a rejected
LOAD on D26. -/
def Obligations.TransactionKeepsInvariant : Prop :=
  ∀ (tr : Transaction) (s t : State) (r : Response), s.Inv → transact tr s = .next (t, r) → t.Inv

/-- LOAD of an image that fits (R280, R282, R283): everything but KEY is initialized, byte j stands at 0x200 + j, the
rest of the program area is 0, the reserved region holds the font, and the engine runs. -/
def Obligations.LoadPlacesProgram : Prop :=
  ∀ (s : State) (bytes : List Byte), bytes.length ≤ 0xE00 →
    ∃ t, transact (.load bytes) s = .next (t, .ok) ∧
      (∀ j : Nat, (h : j < bytes.length) → t.peek (0x200 + j) = bytes[j]) ∧
      (∀ a : Nat, 0x200 + bytes.length ≤ a → t.peek a = 0) ∧
      (∀ d r : Nat, d < 16 → r < 5 → t.peek (s.params.fontBase.val + 5 * d + r) = fontRow d r) ∧
      (∀ a : Nat, a < 0x200 → (a < s.params.fontBase.val ∨ s.params.fontBase.val + 80 ≤ a) → t.peek a = 0) ∧
      (∀ x, t.reg x = 0) ∧ t.i = 0 ∧ t.pc = 0x200#16 ∧ t.sp = 0 ∧ (∀ k : Fin 16, t.stack[k] = 0) ∧ t.dt = 0 ∧
      t.st = 0 ∧ (∀ y x, t.pixel y x = false) ∧ t.keyPrev = 0 ∧ t.waitX = 0 ∧ t.faultRec = none ∧
      t.run = .normal ∧ t.key = s.key ∧ t.rndDraws = s.rndDraws ∧ t.params = s.params

/-- LOAD of an image above 0xE00 bytes is rejected: RUN becomes Idle and nothing else changes, FAULT included (R282,
R255; the Idle state is the spec's own choice, D26). -/
def Obligations.LoadRejectsLongProgram : Prop :=
  ∀ (s : State) (bytes : List Byte), bytes.length > 0xE00 →
    ∃ t, transact (.load bytes) s = .next (t, .programTooLarge) ∧ t.run = .idle ∧
      t.mem = s.mem ∧ onlyChanges (fun p => p = .run) s t

/-- TICK in every run-state (R220; that it works in every run-state is the spec's own choice, D27): each timer goes
down by one, stays at 0, and nothing else changes. -/
def Obligations.TickCountsDown : Prop :=
  ∀ s : State, ∃ t, transact .tick s = .next (t, .none) ∧
    t.dt.toNat = s.dt.toNat - 1 ∧ t.st.toNat = s.st.toNat - 1 ∧
    onlyChanges (fun p => p = .dt ∨ p = .st) s t

/-- SET_KEY (R53): key k takes the value given, no other key and nothing else changes; an index above 15 has no
effect (the spec's own choice, D34). -/
def Obligations.SetKeySetsOneKey : Prop :=
  ∀ (s : State) (k : Nat) (p : Bool), ∃ t, transact (.setKey k p) s = .next (t, .none) ∧
    (k > 15 → t = s) ∧ (k ≤ 15 → t.keyDown k = p) ∧
    (∀ j, j ≤ 15 → j ≠ k → t.keyDown j = s.keyDown j) ∧ onlyChanges (fun q => q = .key) s t

/-- SNAPSHOT answers every pixel of DISP and SOUND_ACTIVE whether ST is above 0; neither changes the state, in any
run-state (R54, R55). -/
def Obligations.ObserversHaveNoEffect : Prop :=
  ∀ s : State,
    (∃ d, transact .snapshot s = .next (s, .grid d) ∧ ∀ y x, d.at y x = s.pixel y x) ∧
    ∃ b, transact .soundActive s = .next (s, .bit b) ∧ (b = true ↔ s.st.toNat > 0)

/-- A STEP that is Idle or Halted changes nothing and says so (R51, R254; the spec's own choice, D21). -/
def Obligations.StepWhileNotRunning : Prop :=
  ∀ s : State,
    (s.run = .idle → transact .step s = .next (s, .stepped .notRunning)) ∧
    (s.run = .halted → transact .step s = .next (s, .stepped (.faulted s.faultRec)))

/-- The status of a STEP of a running engine (R51): Faulted with the record if the cycle faults, Waiting if the
instruction was LD Vx,K, else Executed. -/
def Obligations.StepReportsStatus : Prop :=
  ∀ s t : State, s.run = .normal → step s = .next t →
    (cycleFault s ≠ none → transact .step s = .next (t, .stepped (.faulted t.faultRec))) ∧
    (∀ op i, s.fetch = .ok op → decode op = .ok i → cycleFault s = none →
      transact .step s = .next (t, .stepped (if ∃ x, i = .ldVxK x then .waiting else .executed)))

/-! ### Rules about the whole machine -/

/-- Only CLS, DRW and initialization change DISP (R194): a transaction that changes it is a LOAD that re-initializes
or a STEP that runs CLS or DRW. -/
def Obligations.OnlyClsDrwLoadChangeDisplay : Prop :=
  ∀ (tr : Transaction) (s t : State) (r : Response), transact tr s = .next (t, r) → t.disp ≠ s.disp →
    (∃ bytes : List Byte, tr = .load bytes ∧ bytes.length ≤ 0xE00) ∨
    (tr = .step ∧ s.run = .normal ∧
      ∃ op i, s.fetch = .ok op ∧ decode op = .ok i ∧ (i = .cls ∨ ∃ x y n, i = .drw x y n))

/-- Which instruction can change I, the call stack, the timers, MEM, the key latches; none changes KEY (R22, R24, R28,
R29, R31, R60; that I stays after LD [I] and LD Vx,[I] is the spec's choice D10). The count of draws (log entry 3) and
the parameters (log entry 4) are the model's own fields. -/
def Obligations.SpecialStateWriters : Prop :=
  ∀ (i : Instr) (s t : State), exec i s = .next t →
    (t.i ≠ s.i → (∃ nnn, i = .ldINnn nnn) ∨ (∃ x, i = .addIVx x ∨ i = .ldFVx x) ∨
      (s.params.memIncrementsI = true ∧ ∃ x, i = .ldMemIVx x ∨ i = .ldVxMemI x)) ∧
    (t.sp ≠ s.sp → i = .ret ∨ ∃ nnn, i = .call nnn) ∧ (t.stack ≠ s.stack → ∃ nnn, i = .call nnn) ∧
    (t.dt ≠ s.dt → ∃ x, i = .ldDtVx x) ∧ (t.st ≠ s.st → ∃ x, i = .ldStVx x) ∧
    (t.mem ≠ s.mem → ∃ x, i = .ldBVx x ∨ i = .ldMemIVx x) ∧
    (t.rndDraws ≠ s.rndDraws → ∃ x kk, i = .rnd x kk) ∧
    ((t.keyPrev ≠ s.keyPrev ∨ t.waitX ≠ s.waitX) → ∃ x, i = .ldVxK x) ∧
    t.key = s.key ∧ t.params = s.params

/-- An instruction writes VF only as the flag of ADD Vx,Vy, SUB, SUBN, SHR, SHL, DRW (R21), or because it names VF as
its destination, or as the last of the registers LD VF,[I] loads. -/
def Obligations.FlagRegisterWriters : Prop :=
  ∀ (i : Instr) (s t : State), exec i s = .next t → t.vf ≠ s.vf →
    (∃ x y, i = .addVxVy x y ∨ i = .sub x y ∨ i = .subn x y ∨ i = .shr x y ∨ i = .shl x y) ∨
    (∃ x y n, i = .drw x y n) ∨
    (∃ kk, i = .ldVxKk 15 kk ∨ i = .addVxKk 15 kk ∨ i = .rnd 15 kk) ∨
    (∃ y, i = .ldVxVy 15 y ∨ i = .orVxVy 15 y ∨ i = .andVxVy 15 y ∨ i = .xorVxVy 15 y) ∨
    i = .ldVxDt 15 ∨ i = .ldVxMemI 15

/-- The key-wait is the only suspension (R215): no other instruction leaves a running engine waiting, and of the
transactions on a waiting engine only a STEP, or a LOAD, which starts over (log entry 9), ends the wait. -/
def Obligations.KeyWaitIsOnlySuspension : Prop :=
  (∀ (i : Instr) (s t : State), s.run = .normal → exec i s = .next t → t.run = .waitingForKey →
    ∃ x, i = .ldVxK x) ∧
  ∀ (tr : Transaction) (s t : State) (r : Response), s.run = .waitingForKey → transact tr s = .next (t, r) →
    t.run ≠ .waitingForKey → tr = .step ∨ ∃ bytes, tr = .load bytes

/-! ### Control transfer -/

/-- SYS nnn (R120) only passes on with SYS_MODE = nop, and raises UnknownOpcode with SYS_MODE = fault (R12; the
default is the spec's own choice, D3). -/
def Obligations.SysFollowsItsMode : Prop :=
  ∀ (nnn : Addr12) (s : State),
    (s.params.sysMode = .nop → ∃ t, exec (.sys nnn) s = .next t ∧ t.pc = s.pc + 2 ∧
      onlyChanges (fun p => p = .pc) s t) ∧
    (s.params.sysMode = .fault → exec (.sys nnn) s = .next
      { s with faultRec := some ⟨.unknownOpcode, s.pc, some (encode (.sys nnn)), none⟩, run := .halted })

/-- JP nnn and JP V0, nnn (R122, R125): the target is nnn, or nnn plus V0 without a 12-bit mask (the spec's own choice,
D11); nothing else changes. -/
def Obligations.JumpsSetPc : Prop :=
  ∀ (nnn : Addr12) (s : State),
    (∃ t, exec (.jp nnn) s = .next t ∧ t.pc.toNat = nnn.toNat ∧ onlyChanges (fun p => p = .pc) s t) ∧
    (∃ t, exec (.jpV0Nnn nnn) s = .next t ∧ t.pc.toNat = nnn.toNat + (s.reg 0).toNat ∧
      onlyChanges (fun p => p = .pc) s t)

/-- CALL nnn with room on the stack (R123) pushes PC + 2 and jumps. -/
def Obligations.CallPushesReturnAddress : Prop :=
  ∀ (nnn : Addr12) (s : State) (k : Fin 16), s.sp.val = k.val →
    ∃ t, exec (.call nnn) s = .next t ∧ t.stack[k] = s.pc + 2 ∧ t.sp.val = s.sp.val + 1 ∧
      t.pc.toNat = nnn.toNat ∧ onlyChanges (fun p => p = .pc ∨ p = .sp ∨ p = .stack k) s t

/-- RET with an entry on the stack (R121) pops it into PC and clears nothing. -/
def Obligations.RetPopsReturnAddress : Prop :=
  ∀ (s : State) (k : Fin 16), s.sp.val = k.val + 1 →
    ∃ t, exec .ret s = .next t ∧ t.pc = s.stack[k] ∧ t.sp.val = s.sp.val - 1 ∧
      onlyChanges (fun p => p = .pc ∨ p = .sp) s t

/-- CALL on a full stack and RET on an empty one halt the engine and change neither stack nor PC (R121, R123, R250,
R253). -/
def Obligations.StackLimitsFault : Prop :=
  ∀ (nnn : Addr12) (s : State),
    (s.sp.val = 16 → exec (.call nnn) s = .next
      { s with faultRec := some ⟨.stackOverflow, s.pc, some (encode (.call nnn)), none⟩, run := .halted }) ∧
    (s.sp.val = 0 → exec .ret s = .next
      { s with faultRec := some ⟨.stackUnderflow, s.pc, some (encode .ret), none⟩, run := .halted })

/-- A CALL and the RET that finds its entry again on top of the stack come back to the CALL's address + 2 (R124). -/
def Obligations.CallThenRetReturns : Prop :=
  ∀ (nnn : Addr12) (s t u : State) (k : Fin 16), s.sp.val = k.val → exec (.call nnn) s = .next t →
    u.sp = t.sp → u.stack[k] = t.stack[k] →
    ∃ w, exec .ret u = .next w ∧ w.pc = s.pc + 2 ∧ w.sp = s.sp

/-! ### Skips -/

/-- SE and SNE (R140 to R143): PC + 4 if the comparison holds, else PC + 2, and nothing else changes. -/
def Obligations.RegisterSkips : Prop :=
  ∀ (x y : RegIdx) (kk : Byte) (s : State),
    (∃ t, exec (.seVxKk x kk) s = .next t ∧ t.pc = (if s.reg x = kk then s.pc + 4 else s.pc + 2) ∧
      onlyChanges (fun p => p = .pc) s t) ∧
    (∃ t, exec (.sneVxKk x kk) s = .next t ∧ t.pc = (if s.reg x ≠ kk then s.pc + 4 else s.pc + 2) ∧
      onlyChanges (fun p => p = .pc) s t) ∧
    (∃ t, exec (.seVxVy x y) s = .next t ∧ t.pc = (if s.reg x = s.reg y then s.pc + 4 else s.pc + 2) ∧
      onlyChanges (fun p => p = .pc) s t) ∧
    (∃ t, exec (.sneVxVy x y) s = .next t ∧ t.pc = (if s.reg x ≠ s.reg y then s.pc + 4 else s.pc + 2) ∧
      onlyChanges (fun p => p = .pc) s t)

/-- SKP and SKNP with a key index in V[x] (R144, R145): the skip is on the key as it stands. -/
def Obligations.KeySkips : Prop :=
  ∀ (x : RegIdx) (s : State), (s.reg x).toNat ≤ 0xF →
    (∃ t, exec (.skp x) s = .next t ∧
      t.pc = (if s.keyDown (s.reg x).toNat = true then s.pc + 4 else s.pc + 2) ∧
      onlyChanges (fun p => p = .pc) s t) ∧
    (∃ t, exec (.sknp x) s = .next t ∧
      t.pc = (if s.keyDown (s.reg x).toNat = false then s.pc + 4 else s.pc + 2) ∧
      onlyChanges (fun p => p = .pc) s t)

/-- SKP and SKNP with V[x] > 0xF raise KeyIndexOutOfRange (R144, R145, R250; the spec's own choice, D15). -/
def Obligations.KeySkipsFaultOnBadIndex : Prop :=
  ∀ (x : RegIdx) (s : State), (s.reg x).toNat > 0xF →
    exec (.skp x) s = .next
      { s with faultRec := some ⟨.keyIndexOutOfRange, s.pc, some (encode (.skp x)), none⟩, run := .halted } ∧
    exec (.sknp x) s = .next
      { s with faultRec := some ⟨.keyIndexOutOfRange, s.pc, some (encode (.sknp x)), none⟩, run := .halted }

/-! ### Registers -/

/-- LD Vx,kk; LD Vx,Vy; OR; AND; XOR (R161, R163 to R166) write V[x] and leave VF alone unless x = F (for the logic
instructions the spec's own choice, D9). -/
def Obligations.LoadsAndLogicWriteVx : Prop :=
  ∀ (x y : RegIdx) (kk : Byte) (s : State),
    (∃ t, exec (.ldVxKk x kk) s = .next t ∧ t.reg x = kk ∧ onlyWritesVx x s t) ∧
    (∃ t, exec (.ldVxVy x y) s = .next t ∧ t.reg x = s.reg y ∧ onlyWritesVx x s t) ∧
    (∃ t, exec (.orVxVy x y) s = .next t ∧ t.reg x = s.reg x ||| s.reg y ∧ onlyWritesVx x s t) ∧
    (∃ t, exec (.andVxVy x y) s = .next t ∧ t.reg x = s.reg x &&& s.reg y ∧ onlyWritesVx x s t) ∧
    (∃ t, exec (.xorVxVy x y) s = .next t ∧ t.reg x = s.reg x ^^^ s.reg y ∧ onlyWritesVx x s t)

/-- Arithmetic is on naturals modulo 256, without trap or saturation; ADD Vx,Vy, SUB and SUBN report the lost carry or
borrow in VF, and ADD Vx,kk reports nothing (R172). With x = F the two writes meet, for which see
Obligations.FlagAndResultOrder. -/
def Obligations.ArithmeticWrapsModulo256 : Prop :=
  ∀ (x y : RegIdx) (kk : Byte) (s : State),
    (∃ t, exec (.addVxKk x kk) s = .next t ∧ (t.reg x).toNat = ((s.reg x).toNat + kk.toNat) % 256 ∧
      onlyWritesVx x s t) ∧
    (∃ t, exec (.addVxVy x y) s = .next t ∧ onlyWritesVxVf x s t ∧
      (x ≠ 15 → (t.reg x).toNat = ((s.reg x).toNat + (s.reg y).toNat) % 256 ∧
        t.vf = if (s.reg x).toNat + (s.reg y).toNat > 255 then 1 else 0)) ∧
    (∃ t, exec (.sub x y) s = .next t ∧ onlyWritesVxVf x s t ∧
      (x ≠ 15 → (t.reg x).toNat = ((s.reg x).toNat + 256 - (s.reg y).toNat) % 256 ∧
        t.vf = if (s.reg x).toNat ≥ (s.reg y).toNat then 1 else 0)) ∧
    (∃ t, exec (.subn x y) s = .next t ∧ onlyWritesVxVf x s t ∧
      (x ≠ 15 → (t.reg x).toNat = ((s.reg y).toNat + 256 - (s.reg x).toNat) % 256 ∧
        t.vf = if (s.reg y).toNat ≥ (s.reg x).toNat then 1 else 0))

/-- SHR and SHL (R169, R171) of V[x], or of V[y] with SHIFT_SOURCE = vy (R12; the default is the spec's own choice,
D8): the result and the bit shifted out. -/
def Obligations.ShiftsByOne : Prop :=
  ∀ (x y : RegIdx) (s : State) (a : Byte),
    (s.params.shiftSource = .vx → a = s.reg x) → (s.params.shiftSource = .vy → a = s.reg y) →
    (∃ t, exec (.shr x y) s = .next t ∧ onlyWritesVxVf x s t ∧
      (x ≠ 15 → (t.reg x).toNat = a.toNat / 2 ∧ t.vf = if a.toNat % 2 = 1 then 1 else 0)) ∧
    (∃ t, exec (.shl x y) s = .next t ∧ onlyWritesVxVf x s t ∧
      (x ≠ 15 → (t.reg x).toNat = (a.toNat * 2) % 256 ∧ t.vf = if a.toNat ≥ 128 then 1 else 0))

/-- With x = F the flag wins when it is written last, and the result when that is (R160, R12; the order is the spec's
own choice, D6). Shifts are of V[F] or V[y] by SHIFT_SOURCE. -/
def Obligations.FlagAndResultOrder : Prop :=
  ∀ (y : RegIdx) (s : State) (a : Byte),
    (s.params.shiftSource = .vx → a = s.vf) → (s.params.shiftSource = .vy → a = s.reg y) →
    ∃ t1 t2 t3 t4 t5, exec (.addVxVy 15 y) s = .next t1 ∧ exec (.sub 15 y) s = .next t2 ∧
      exec (.subn 15 y) s = .next t3 ∧ exec (.shr 15 y) s = .next t4 ∧ exec (.shl 15 y) s = .next t5 ∧
      (s.params.vfWriteOrder = .flagLast →
        t1.vf = (if s.vf.toNat + (s.reg y).toNat > 255 then 1 else 0) ∧
        t2.vf = (if s.vf.toNat ≥ (s.reg y).toNat then 1 else 0) ∧
        t3.vf = (if (s.reg y).toNat ≥ s.vf.toNat then 1 else 0) ∧
        t4.vf = (if a.toNat % 2 = 1 then 1 else 0) ∧ t5.vf = (if a.toNat ≥ 128 then 1 else 0)) ∧
      (s.params.vfWriteOrder = .resultLast →
        t1.vf.toNat = (s.vf.toNat + (s.reg y).toNat) % 256 ∧
        t2.vf.toNat = (s.vf.toNat + 256 - (s.reg y).toNat) % 256 ∧
        t3.vf.toNat = ((s.reg y).toNat + 256 - s.vf.toNat) % 256 ∧
        t4.vf.toNat = a.toNat / 2 ∧ t5.vf.toNat = (a.toNat * 2) % 256)

/-- RND Vx,kk (R176) takes exactly one draw from the random source, whatever its value, and writes it masked. The
draw is the free value Config.rnd8 (log entry 3). -/
def Obligations.RndTakesOneDraw : Prop :=
  ∀ (x : RegIdx) (kk : Byte) (s : State),
    ∃ t, exec (.rnd x kk) s = .next t ∧ t.reg x = Config.rnd8 s.rndDraws &&& kk ∧
      t.rndDraws = s.rndDraws + 1 ∧ t.pc = s.pc + 2 ∧
      onlyChanges (fun p => p = .pc ∨ p = .v x ∨ p = .rndDraws) s t

/-! ### Display -/

/-- CLS, the word 0x00E0 (R190): every pixel becomes 0, PC moves past it, and nothing else changes, VF included. -/
def Obligations.ClsClearsDisplay : Prop :=
  decode 0x00E0#16 = .ok .cls ∧
  ∀ s : State, ∃ t, exec .cls s = .next t ∧ (∀ y x, t.pixel y x = false) ∧ t.pc = s.pc + 2 ∧
    onlyChanges (fun p => p = .pc ∨ ∃ y x, p = .pixel y x) s t

/-- DRW with its sprite in memory (R192): every pixel is XORed with the sprite's bit there, start and pixels wrapping
at the edges, VF says whether a set pixel was cleared, and nothing else changes; with n = 0 nothing is drawn (the
spec's own choice, D16). -/
def Obligations.DrwXorsSprite : Prop :=
  ∀ (x y : RegIdx) (n : Nibble) (s : State), n.toNat = 0 ∨ s.i.toNat + n.toNat ≤ 0x1000 →
    ∃ t, exec (.drw x y n) s = .next t ∧
      (∀ py px, t.pixel py px = (s.pixel py px ^^ s.spriteBit x y n py px)) ∧
      ((∃ py px, s.pixel py px = true ∧ s.spriteBit x y n py px = true) → t.vf = 1) ∧
      ((¬∃ py px, s.pixel py px = true ∧ s.spriteBit x y n py px = true) → t.vf = 0) ∧
      t.pc = s.pc + 2 ∧ onlyChanges (fun p => p = .pc ∨ p = .v 15 ∨ ∃ py px, p = .pixel py px) s t

/-- Drawing the same sprite again at the same place restores every pixel, and the second draw collides exactly when
the first one set a pixel (R193). -/
def Obligations.SecondDrawRestoresDisplay : Prop :=
  ∀ (x y : RegIdx) (n : Nibble) (s t u : State), n.toNat = 0 ∨ s.i.toNat + n.toNat ≤ 0x1000 →
    exec (.drw x y n) s = .next t → u.disp = t.disp → u.i = s.i → u.reg x = s.reg x → u.reg y = s.reg y →
    (∀ j : Nat, j < n.toNat → u.peek (s.i.toNat + j) = s.peek (s.i.toNat + j)) →
    ∃ w, exec (.drw x y n) u = .next w ∧ (∀ py px, w.pixel py px = s.pixel py px) ∧
      ((∃ py px, s.pixel py px = false ∧ t.pixel py px = true) → w.vf = 1) ∧
      ((¬∃ py px, s.pixel py px = false ∧ t.pixel py px = true) → w.vf = 0)

/-! ### Timers and keys -/

/-- LD Vx,DT; LD DT,Vx; LD ST,Vx (R210, R216, R217) move one byte and change nothing else. -/
def Obligations.TimerMoves : Prop :=
  ∀ (x : RegIdx) (s : State),
    (∃ t, exec (.ldVxDt x) s = .next t ∧ t.reg x = s.dt ∧ onlyWritesVx x s t) ∧
    (∃ t, exec (.ldDtVx x) s = .next t ∧ t.dt = s.reg x ∧ t.pc = s.pc + 2 ∧
      onlyChanges (fun p => p = .pc ∨ p = .dt) s t) ∧
    (∃ t, exec (.ldStVx x) s = .next t ∧ t.st = s.reg x ∧ t.pc = s.pc + 2 ∧
      onlyChanges (fun p => p = .pc ∨ p = .st) s t)

/-- LD Vx,K enters the wait (R212; the entry as the poll baseline is the spec's own choice, D18): the keys that are
down are latched, x is kept, PC stays; and since no key is new, the next STEP changes nothing and still waits. -/
def Obligations.KeyWaitEntry : Prop :=
  ∀ (x : RegIdx) (s : State),
    ∃ t, exec (.ldVxK x) s = .next t ∧ t.keyPrev = s.key ∧ t.waitX = x ∧ t.run = .waitingForKey ∧
      onlyChanges (fun p => p = .keyPrev ∨ p = .waitX ∨ p = .run) s t ∧
      transact .step t = .next (t, .stepped .waiting)

/-- A poll that sees no new key (R213) only remembers the keys it saw, and the wait goes on. -/
def Obligations.PollWithoutNewKeyWaits : Prop :=
  ∀ s : State, s.run = .waitingForKey → (∀ k < 16, s.keyDown k = true → s.keyPrev.getLsbD k = true) →
    ∃ t, transact .step s = .next (t, .stepped .waiting) ∧ t.keyPrev = s.key ∧
      onlyChanges (fun p => p = .keyPrev) s t

/-- A poll that sees a key down that was up at the previous poll (R213) completes the wait: the lowest such key (the
spec's own choice, D18) goes to V[WAIT_X], and the engine runs on past the instruction. -/
def Obligations.PollWithNewKeyCompletes : Prop :=
  ∀ (s : State) (k : Nat), s.run = .waitingForKey → k < 16 → s.keyDown k = true → s.keyPrev.getLsbD k = false →
    (∀ j < k, s.keyDown j = true → s.keyPrev.getLsbD j = true) →
    ∃ t, transact .step s = .next (t, .stepped .executed) ∧ (t.reg s.waitX).toNat = k ∧ t.keyPrev = s.key ∧
      t.run = .normal ∧ t.pc = s.pc + 2 ∧
      onlyChanges (fun p => p = .v s.waitX ∨ p = .keyPrev ∨ p = .run ∨ p = .pc) s t

/-! ### The index register and memory transfers -/

/-- LD I,nnn; ADD I,Vx; LD F,Vx (R230, R232, R234): I on 16 bits, VF not written (the spec's own choices D12, D14). -/
def Obligations.IndexRegisterLoads : Prop :=
  ∀ (x : RegIdx) (nnn : Addr12) (s : State),
    (∃ t, exec (.ldINnn nnn) s = .next t ∧ t.i.toNat = nnn.toNat ∧ t.pc = s.pc + 2 ∧
      onlyChanges (fun p => p = .pc ∨ p = .i) s t) ∧
    (∃ t, exec (.addIVx x) s = .next t ∧ t.i.toNat = (s.i.toNat + (s.reg x).toNat) % 0x10000 ∧
      t.pc = s.pc + 2 ∧ onlyChanges (fun p => p = .pc ∨ p = .i) s t) ∧
    (∃ t, exec (.ldFVx x) s = .next t ∧ t.i.toNat = s.params.fontBase.val + 5 * (s.reg x).toNat ∧
      t.pc = s.pc + 2 ∧ onlyChanges (fun p => p = .pc ∨ p = .i) s t)

/-- LD B,Vx in range (R236) stores the hundreds, tens and ones digit at I, I + 1, I + 2 and changes nothing else. -/
def Obligations.BcdStoresThreeDigits : Prop :=
  ∀ (x : RegIdx) (s : State), s.mem.wf s.bg → s.i.toNat + 2 ≤ 0xFFF →
    ∃ t, exec (.ldBVx x) s = .next t ∧
      (t.peek s.indexAddr).toNat = (s.reg x).toNat / 100 ∧
      (t.peek (s.indexAddr + 1)).toNat = (s.reg x).toNat / 10 % 10 ∧
      (t.peek (s.indexAddr + 2)).toNat = (s.reg x).toNat % 10 ∧ t.pc = s.pc + 2 ∧
      onlyChanges (fun p => p = .pc ∨ ∃ j < 3, p = .mem (s.indexAddr + j)) s t

/-- LD [I],Vx in range (R238) stores V[j] at I + j for j up to x; I stays, or moves past the bytes with
MEM_INCREMENTS_I = true (R12; the default is the spec's own choice, D10). -/
def Obligations.StoreRegistersToMemory : Prop :=
  ∀ (x : RegIdx) (s : State), s.mem.wf s.bg → s.i.toNat + x.val ≤ 0xFFF →
    ∃ t, exec (.ldMemIVx x) s = .next t ∧ (∀ j : RegIdx, j ≤ x → t.peek (s.indexAddr + j.val) = s.reg j) ∧
      t.i.toNat = (if s.params.memIncrementsI then s.i.toNat + x.val + 1 else s.i.toNat) ∧
      t.pc = s.pc + 2 ∧
      onlyChanges (fun p => p = .pc ∨ p = .i ∨ ∃ j ≤ x.val, p = .mem (s.indexAddr + j)) s t

/-- LD Vx,[I] in range (R240) loads V[j] from I + j for j up to x; I as in Obligations.StoreRegistersToMemory. -/
def Obligations.LoadRegistersFromMemory : Prop :=
  ∀ (x : RegIdx) (s : State), s.i.toNat + x.val ≤ 0xFFF →
    ∃ t, exec (.ldVxMemI x) s = .next t ∧ (∀ j : RegIdx, j ≤ x → t.reg j = s.peek (s.indexAddr + j.val)) ∧
      t.i.toNat = (if s.params.memIncrementsI then s.i.toNat + x.val + 1 else s.i.toNat) ∧
      t.pc = s.pc + 2 ∧ onlyChanges (fun p => p = .pc ∨ p = .i ∨ ∃ j ≤ x, p = .v j) s t

/-- DRW, LD B, LD [I] and LD Vx,[I] whose last byte is above 0xFFF halt the engine with the lowest failing address on
record, max(I, 0x1000), and change nothing else: no byte, register or pixel (R63, R192, R236, R238, R240; precision and
the address are the spec's own choices, D20, D30). -/
def Obligations.RangeFaultsAreWhole : Prop :=
  ∀ (x y : RegIdx) (n : Nibble) (s : State),
    (n.toNat ≥ 1 → s.i.toNat + n.toNat - 1 > 0xFFF → exec (.drw x y n) s = .next
      { s with faultRec := some ⟨.addressOutOfRange, s.pc, some (encode (.drw x y n)),
          some (max s.i.toNat 0x1000)⟩, run := .halted }) ∧
    (s.i.toNat + 2 > 0xFFF → exec (.ldBVx x) s = .next
      { s with faultRec := some ⟨.addressOutOfRange, s.pc, some (encode (.ldBVx x)),
          some (max s.i.toNat 0x1000)⟩, run := .halted }) ∧
    (s.i.toNat + x.val > 0xFFF → exec (.ldMemIVx x) s = .next
      { s with faultRec := some ⟨.addressOutOfRange, s.pc, some (encode (.ldMemIVx x)),
          some (max s.i.toNat 0x1000)⟩, run := .halted }) ∧
    (s.i.toNat + x.val > 0xFFF → exec (.ldVxMemI x) s = .next
      { s with faultRec := some ⟨.addressOutOfRange, s.pc, some (encode (.ldVxMemI x)),
          some (max s.i.toNat 0x1000)⟩, run := .halted })

/-- LD [I],Vx then, from the same I and with the stored bytes untouched, LD Vx,[I] restores V0..Vx (R242). -/
def Obligations.StoreThenLoadRestores : Prop :=
  ∀ (x : RegIdx) (s t u : State), s.mem.wf s.bg → s.i.toNat + x.val ≤ 0xFFF → exec (.ldMemIVx x) s = .next t →
    u.i = s.i → (∀ j : Nat, j ≤ x.val → u.peek (s.indexAddr + j) = t.peek (s.indexAddr + j)) →
    ∃ w, exec (.ldVxMemI x) u = .next w ∧ ∀ j : RegIdx, j ≤ x → w.reg j = s.reg j

/-! ### Schedules of the host -/

/-- Every schedule, finite or infinite (HOST_SCHEDULE of R12), runs from every state: after any number of its
transactions there is a state, and the next transaction is carried out there (R58). That a schedule that has ended
leaves the state as it is is the model's choice (log entry 11), after the spec's own choice D35. -/
def Obligations.EveryScheduleRuns : Prop :=
  ∀ (sch : Schedule) (s : State) (n : Nat), ∃ t, sch.run s n = .next t ∧
    (∀ tr, sch.nth n = some tr → ∃ u r, transact tr t = .next (u, r) ∧ sch.run s (n + 1) = .next u) ∧
    (sch.nth n = none → sch.run s (n + 1) = .next t)

/-- Every state that a schedule, finite or infinite, passes through from a state with the invariant has it (R12, R58;
canonical memory is the model's own representation, log entry 5). -/
def Obligations.SchedulesKeepInvariant : Prop :=
  ∀ (sch : Schedule) (s t : State) (n : Nat), s.Inv → sch.run s n = .next t → t.Inv

/-- What an infinite schedule leads to after `n` transactions is what the list of these `n` leads to, and a finite
one, from its length on, stays where its list ends. Both runs are the model's own definitions, and that an ended run
stays is its choice (log entry 11), after the spec's own choice D35. -/
def Obligations.ScheduleRunsByItsBeginnings : Prop :=
  (∀ (f : Nat → Transaction) (s : State) (n : Nat),
    (Schedule.infinite f).run s n = runSchedule ((List.range n).map f) s) ∧
  ∀ (trs : List Transaction) (s : State) (n : Nat), trs.length ≤ n →
    (Schedule.finite trs).run s n = runSchedule trs s
end

