-- ==== Sys2Proof/Laws/Decode.lean ====
section
/-! SUPPORT. The fields of an encoded word are what was put into them (R10, R94), as numbers and as bit vectors. -/
namespace Sys2Proof

theorem toNat_append_eq {m n : Nat} (a : BitVec m) (b : BitVec n) : (a ++ b).toNat = a.toNat * 2 ^ n + b.toNat := by
  rw [BitVec.toNat_append, ← Nat.shiftLeft_add_eq_or_of_lt b.isLt, Nat.shiftLeft_eq]

/-! ### Words as numbers -/

theorem toNat_wordAddr (h : BitVec 4) (nnn : Addr12) : (wordAddr h nnn).toNat = h.toNat * 4096 + nnn.toNat :=
  toNat_append_eq h nnn

theorem toNat_wordXkk (h : BitVec 4) (x : RegIdx) (kk : Byte) :
    (wordXkk h x kk).toNat = h.toNat * 4096 + (x.val * 256 + kk.toNat) :=
  (toNat_append_eq h (regBits x ++ kk)).trans (congrArg _ (toNat_append_eq (regBits x) kk))

theorem toNat_wordXyn (h : BitVec 4) (x y : RegIdx) (n : Nibble) :
    (wordXyn h x y n).toNat = h.toNat * 4096 + (x.val * 256 + (y.val * 16 + n.toNat)) :=
  (toNat_append_eq h _).trans (congrArg _ ((toNat_append_eq (regBits x) _).trans
    (congrArg _ (toNat_append_eq (regBits y) n))))

theorem toNat_wordOfBytes (hi lo : Byte) : (wordOfBytes hi lo).toNat = hi.toNat * 256 + lo.toNat :=
  toNat_append_eq hi lo

/-! ### Fields as numbers -/

theorem toNat_fieldH (op : Word) : (fieldH op).toNat = op.toNat / 4096 := by
  have := op.isLt
  simp only [fieldH, BitVec.extractLsb'_toNat, Nat.shiftRight_eq_div_pow]; omega

theorem val_fieldX (op : Word) : (fieldX op).val = op.toNat / 256 % 16 := by
  have h : (fieldX op).val = (op.extractLsb' 8 4).toNat := rfl
  rw [h, BitVec.extractLsb'_toNat, Nat.shiftRight_eq_div_pow]

theorem val_fieldY (op : Word) : (fieldY op).val = op.toNat / 16 % 16 := by
  have h : (fieldY op).val = (op.extractLsb' 4 4).toNat := rfl
  rw [h, BitVec.extractLsb'_toNat, Nat.shiftRight_eq_div_pow]

theorem toNat_fieldN (op : Word) : (fieldN op).toNat = op.toNat % 16 := by
  simp [fieldN, BitVec.extractLsb'_toNat]

theorem toNat_fieldKk (op : Word) : (fieldKk op).toNat = op.toNat % 256 := by
  simp [fieldKk, BitVec.extractLsb'_toNat]

theorem toNat_fieldNnn (op : Word) : (fieldNnn op).toNat = op.toNat % 4096 := by
  simp [fieldNnn, BitVec.extractLsb'_toNat]

theorem toNat_hiByte (op : Word) : (hiByte op).toNat = op.toNat / 256 := by
  have := op.isLt
  simp only [hiByte, BitVec.extractLsb'_toNat, Nat.shiftRight_eq_div_pow]; omega

theorem toNat_loByte (op : Word) : (loByte op).toNat = op.toNat % 256 := by
  simp [loByte, BitVec.extractLsb'_toNat]

/-! ### Bytes in memory order (R64) -/

@[simp] theorem wordOfBytes_hi_lo (op : Word) : wordOfBytes (hiByte op) (loByte op) = op :=
  BitVec.eq_of_toNat_eq (by rw [toNat_wordOfBytes, toNat_hiByte, toNat_loByte]; omega)

@[simp] theorem hiByte_wordOfBytes (hi lo : Byte) : hiByte (wordOfBytes hi lo) = hi :=
  BitVec.eq_of_toNat_eq (by have := lo.isLt; rw [toNat_hiByte, toNat_wordOfBytes]; omega)

@[simp] theorem loByte_wordOfBytes (hi lo : Byte) : loByte (wordOfBytes hi lo) = lo :=
  BitVec.eq_of_toNat_eq (by have := lo.isLt; rw [toNat_loByte, toNat_wordOfBytes]; omega)

/-! ### The fields of each format (R94) -/

@[simp] theorem fieldH_wordAddr (h : BitVec 4) (nnn : Addr12) : fieldH (wordAddr h nnn) = h :=
  BitVec.eq_of_toNat_eq (by have := nnn.isLt; rw [toNat_fieldH, toNat_wordAddr]; omega)

@[simp] theorem fieldNnn_wordAddr (h : BitVec 4) (nnn : Addr12) : fieldNnn (wordAddr h nnn) = nnn :=
  BitVec.eq_of_toNat_eq (by have := nnn.isLt; rw [toNat_fieldNnn, toNat_wordAddr]; omega)

@[simp] theorem fieldH_wordXkk (h : BitVec 4) (x : RegIdx) (kk : Byte) : fieldH (wordXkk h x kk) = h :=
  BitVec.eq_of_toNat_eq (by have := kk.isLt; rw [toNat_fieldH, toNat_wordXkk]; omega)

@[simp] theorem fieldX_wordXkk (h : BitVec 4) (x : RegIdx) (kk : Byte) : fieldX (wordXkk h x kk) = x :=
  Fin.ext (by have := kk.isLt; rw [val_fieldX, toNat_wordXkk]; omega)

@[simp] theorem fieldKk_wordXkk (h : BitVec 4) (x : RegIdx) (kk : Byte) : fieldKk (wordXkk h x kk) = kk :=
  BitVec.eq_of_toNat_eq (by have := kk.isLt; rw [toNat_fieldKk, toNat_wordXkk]; omega)

@[simp] theorem fieldH_wordXyn (h : BitVec 4) (x y : RegIdx) (n : Nibble) : fieldH (wordXyn h x y n) = h :=
  BitVec.eq_of_toNat_eq (by have := n.isLt; rw [toNat_fieldH, toNat_wordXyn]; omega)

@[simp] theorem fieldX_wordXyn (h : BitVec 4) (x y : RegIdx) (n : Nibble) : fieldX (wordXyn h x y n) = x :=
  Fin.ext (by have := n.isLt; rw [val_fieldX, toNat_wordXyn]; omega)

@[simp] theorem fieldY_wordXyn (h : BitVec 4) (x y : RegIdx) (n : Nibble) : fieldY (wordXyn h x y n) = y :=
  Fin.ext (by have := n.isLt; rw [val_fieldY, toNat_wordXyn]; omega)

@[simp] theorem fieldN_wordXyn (h : BitVec 4) (x y : RegIdx) (n : Nibble) : fieldN (wordXyn h x y n) = n :=
  BitVec.eq_of_toNat_eq (by have := n.isLt; rw [toNat_fieldN, toNat_wordXyn]; omega)

/-! ### A word from its own fields -/

theorem wordAddr_fields (op : Word) : wordAddr (fieldH op) (fieldNnn op) = op :=
  BitVec.eq_of_toNat_eq (by rw [toNat_wordAddr, toNat_fieldH, toNat_fieldNnn]; omega)

theorem wordXkk_fields (op : Word) : wordXkk (fieldH op) (fieldX op) (fieldKk op) = op :=
  BitVec.eq_of_toNat_eq (by rw [toNat_wordXkk, toNat_fieldH, val_fieldX, toNat_fieldKk]; omega)

theorem wordXyn_fields (op : Word) : wordXyn (fieldH op) (fieldX op) (fieldY op) (fieldN op) = op :=
  BitVec.eq_of_toNat_eq (by rw [toNat_wordXyn, toNat_fieldH, val_fieldX, val_fieldY, toNat_fieldN]; omega)

/-! ### The bits of each format, and the masks of R97 -/

theorem getElem_wordAddr (h : BitVec 4) (nnn : Addr12) {k : Nat} (hk : k < 16) :
    (wordAddr h nnn)[k] = if _ : k < 12 then nnn[k] else h[k - 12] :=
  BitVec.getElem_append (x := h) (y := nnn) hk

theorem getElem_wordXkk (h : BitVec 4) (x : RegIdx) (kk : Byte) {k : Nat} (hk : k < 16) :
    (wordXkk h x kk)[k] =
      if _ : k < 8 then kk[k] else if _ : k < 12 then (regBits x)[k - 8] else h[k - 12] := by
  refine (getElem_wordAddr h (regBits x ++ kk) hk).trans ?_
  by_cases h1 : k < 12
  · rw [dif_pos h1]
    refine (BitVec.getElem_append (x := regBits x) (y := kk) h1).trans ?_
    by_cases h2 : k < 8 <;> simp [h1, h2]
  · rw [dif_neg h1, dif_neg (by omega), dif_neg h1]

theorem getElem_wordXyn (h : BitVec 4) (x y : RegIdx) (n : Nibble) {k : Nat} (hk : k < 16) :
    (wordXyn h x y n)[k] =
      if _ : k < 4 then n[k] else if _ : k < 8 then (regBits y)[k - 4]
      else if _ : k < 12 then (regBits x)[k - 8] else h[k - 12] := by
  refine (getElem_wordXkk h x (regBits y ++ n) hk).trans ?_
  by_cases h1 : k < 8
  · rw [dif_pos h1]
    refine (BitVec.getElem_append (x := regBits y) (y := n) h1).trans ?_
    by_cases h2 : k < 4 <;> simp [h1, h2]
  · rw [dif_neg h1, dif_neg (show ¬k < 4 by omega), dif_neg h1]

/-- The mask 0xF000 keeps `h`. -/
theorem and_F000 (op : Word) : op &&& 0xF000#16 = wordAddr (fieldH op) 0#12 :=
  BitVec.eq_of_getElem_eq fun k hk => by rw [getElem_wordAddr]; interval_cases k <;> simp [fieldH]

/-- The mask 0xF00F keeps `h` and `n`. -/
theorem and_F00F (op : Word) : op &&& 0xF00F#16 = wordXyn (fieldH op) 0 0 (fieldN op) :=
  BitVec.eq_of_getElem_eq fun k hk => by
    rw [getElem_wordXyn]; interval_cases k <;> simp [fieldH, fieldN, regBits]

/-- The mask 0xF0FF keeps `h` and `kk`. -/
theorem and_F0FF (op : Word) : op &&& 0xF0FF#16 = wordXkk (fieldH op) 0 (fieldKk op) :=
  BitVec.eq_of_getElem_eq fun k hk => by
    rw [getElem_wordXkk]; interval_cases k <;> simp [fieldH, fieldKk, regBits]

end Sys2Proof
end

