-- ==== Sys2Proof/Laws/Memory.lean ====
section
/-! SUPPORT. The laws of MEM: reading after writing, and that every memory operation keeps the canonical form. -/
namespace Sys2Proof.Machine.Memory

variable {bg : Nat → Byte}

@[simp] theorem read_nil (a : Nat) : Memory.read bg [] a = bg a := rfl

theorem read_cons (k : Nat) (c : Byte) (m : Memory) (a : Nat) :
    Memory.read bg ((k, c) :: m) a = if a < k then bg a else if a = k then c else Memory.read bg m a := rfl

theorem write_cons (k : Nat) (c : Byte) (m : Memory) (a : Nat) (b : Byte) :
    Memory.write bg ((k, c) :: m) a b =
      if a < k then (if b = bg a then (k, c) :: m else (a, b) :: (k, c) :: m)
      else if a = k then (if b = bg a then m else (a, b) :: m)
      else (k, c) :: Memory.write bg m a b := rfl

theorem wf_nil : Memory.wf bg [] := ⟨.nil, fun _ h => nomatch h⟩

theorem wf_tail {c : Host.Cell} {m : Memory} (h : Memory.wf bg (c :: m)) : Memory.wf bg m :=
  ⟨(List.pairwise_cons.mp h.1).2, fun d hd => h.2 d (List.mem_cons_of_mem _ hd)⟩

/-- Below every listed address nothing is listed. -/
theorem read_below {m : Memory} {a : Nat} (h : ∀ c ∈ m, a < c.1) : Memory.read bg m a = bg a := by
  cases m with
  | nil => rfl
  | cons c m => rw [read_cons, if_pos (h c (List.mem_cons_self ..))]

/-- A read after a write to the same address gives the byte written. -/
theorem read_write_same {m : Memory} (h : Memory.wf bg m) (a : Nat) (b : Byte) :
    Memory.read bg (Memory.write bg m a b) a = b := by
  induction m with
  | nil => by_cases hb : b = bg a <;> simp [Memory.write, Memory.read, hb]
  | cons c m ih =>
    obtain ⟨k, c⟩ := c
    have hlt := (List.pairwise_cons.mp h.1).1
    rw [write_cons]
    split_ifs with h1 h2 h3 h4
    · rw [read_cons, if_pos h1, h2]
    · simp [read_cons]
    · rw [read_below (fun d hd => h3 ▸ hlt d hd), h4]
    · simp [read_cons]
    · rw [read_cons, if_neg h1, if_neg h3, ih (wf_tail h)]

/-- A write leaves every other address as it was. -/
theorem read_write_other {m : Memory} (h : Memory.wf bg m) {a a' : Nat} (b : Byte) (hne : a' ≠ a) :
    Memory.read bg (Memory.write bg m a b) a' = Memory.read bg m a' := by
  induction m with
  | nil =>
    simp only [Memory.write]
    split_ifs
    · rfl
    · simp [read_cons, hne]
  | cons c m ih =>
    obtain ⟨k, c⟩ := c
    have hlt := (List.pairwise_cons.mp h.1).1
    rw [write_cons]
    split_ifs with h1 h2 h3 h4
    · rfl
    · rw [read_cons]
      split_ifs with h5
      · rw [read_cons, if_pos (by omega)]
      · rfl
    · subst h3
      rw [read_cons]
      split_ifs with h5
      · exact read_below fun d hd => by have := hlt d hd; simp only at this; omega
      · rfl
    · subst h3
      simp only [read_cons, if_neg hne]
    · simp only [read_cons, ih (wf_tail h)]

theorem mem_write {m : Memory} {a : Nat} {b : Byte} {d : Host.Cell} (h : d ∈ Memory.write bg m a b) :
    d ∈ m ∨ d = (a, b) ∧ b ≠ bg a := by
  induction m with
  | nil =>
    simp only [Memory.write] at h
    split_ifs at h with hb
    · cases h
    · exact .inr ⟨by simpa using h, hb⟩
  | cons c m ih =>
    obtain ⟨k, c⟩ := c
    rw [write_cons] at h
    split_ifs at h with h1 h2 h3 h4
    · exact .inl h
    · rcases List.mem_cons.mp h with rfl | h
      · exact .inr ⟨rfl, h2⟩
      · exact .inl h
    · exact .inl (List.mem_cons_of_mem _ h)
    · rcases List.mem_cons.mp h with rfl | h
      · exact .inr ⟨rfl, h4⟩
      · exact .inl (List.mem_cons_of_mem _ h)
    · rcases List.mem_cons.mp h with rfl | h
      · exact .inl (List.mem_cons_self ..)
      · exact (ih h).imp (List.mem_cons_of_mem _) id

/-- A write keeps the canonical form. -/
theorem write_wf {m : Memory} (h : Memory.wf bg m) {a : Nat} (b : Byte) (ha : a ≤ 0xFFF) :
    Memory.wf bg (Memory.write bg m a b) := by
  refine ⟨?_, fun d hd => ?_⟩
  · induction m with
    | nil => simp only [Memory.write]; split_ifs <;> simp
    | cons c m ih =>
      obtain ⟨k, c⟩ := c
      have hp := List.pairwise_cons.mp h.1
      rw [write_cons]
      split_ifs with h1 h2 h3 h4
      · exact h.1
      · refine List.pairwise_cons.mpr ⟨fun d hd => ?_, h.1⟩
        rcases List.mem_cons.mp hd with rfl | hd
        · exact h1
        · exact Nat.lt_trans h1 (hp.1 d hd)
      · exact hp.2
      · exact List.pairwise_cons.mpr ⟨fun d hd => h3 ▸ hp.1 d hd, hp.2⟩
      · refine List.pairwise_cons.mpr ⟨fun d hd => ?_, ih (wf_tail h)⟩
        rcases mem_write hd with hd | ⟨rfl, -⟩
        · exact hp.1 d hd
        · simp only; omega
  · rcases mem_write hd with hd | ⟨rfl, hb⟩
    · exact h.2 d hd
    · exact ⟨ha, hb⟩

/-- Writing a run of bytes keeps the canonical form. -/
theorem writeAll_wf {bs : List Byte} : ∀ {m : Memory} {base : Nat}, Memory.wf bg m →
    base + bs.length ≤ 0x1000 → Memory.wf bg (Memory.writeAll bg m base bs) := by
  induction bs with
  | nil => exact fun h _ => h
  | cons b bs ih =>
    intro m base h hl
    rw [List.length_cons] at hl
    exact ih (write_wf h b (by omega)) (by omega)

/-- A run of bytes written from `base` up: byte `j` is at `base + j`, and every other address is as it was. -/
theorem read_writeAll {bs : List Byte} : ∀ {m : Memory} {base : Nat}, Memory.wf bg m →
    base + bs.length ≤ 0x1000 → ∀ a, Memory.read bg (Memory.writeAll bg m base bs) a =
      if h : base ≤ a ∧ a - base < bs.length then bs[a - base]'h.2 else Memory.read bg m a := by
  induction bs with
  | nil => intro m base _ _ a; simp [Memory.writeAll]
  | cons b bs ih =>
    intro m base h hl a
    rw [List.length_cons] at hl
    rw [Memory.writeAll, ih (write_wf h b (by omega)) (by omega)]
    by_cases ha : base = a
    · subst ha
      simp [read_write_same h]
    · rw [read_write_other h b (Ne.symm ha)]
      by_cases hb : base ≤ a ∧ a - base < (b :: bs).length
      · obtain ⟨hb1, hb2⟩ := hb
        have hb3 : a - base < bs.length + 1 := by simpa using hb2
        rw [dif_pos ⟨by omega, by omega⟩, dif_pos ⟨hb1, hb2⟩]
        have : a - base = (a - (base + 1)) + 1 := by omega
        simp only [this, List.getElem_cons_succ]
      · have hb' : ¬(base + 1 ≤ a ∧ a - (base + 1) < bs.length) := by
          rw [List.length_cons] at hb; omega
        rw [dif_neg hb, dif_neg hb']

end Sys2Proof.Machine.Memory
end

