-- ==== Sys2Proof/Laws/State.lean ====
section
/-! SUPPORT. What each update of State does to each field, and to V[x], MEM, the unlisted bytes and the pixels where
it does not touch them: all true by rfl, so that no proof unfolds a record update. -/
namespace Sys2Proof.Machine.State

variable (s : State)

/-! ### setReg -/

@[simp] theorem setReg_v (x : RegIdx) (b : Byte) : (s.setReg x b).v = s.v.set x b := rfl
@[simp] theorem setReg_i (x : RegIdx) (b : Byte) : (s.setReg x b).i = s.i := rfl
@[simp] theorem setReg_pc (x : RegIdx) (b : Byte) : (s.setReg x b).pc = s.pc := rfl
@[simp] theorem setReg_sp (x : RegIdx) (b : Byte) : (s.setReg x b).sp = s.sp := rfl
@[simp] theorem setReg_stack (x : RegIdx) (b : Byte) : (s.setReg x b).stack = s.stack := rfl
@[simp] theorem setReg_mem (x : RegIdx) (b : Byte) : (s.setReg x b).mem = s.mem := rfl
@[simp] theorem setReg_dt (x : RegIdx) (b : Byte) : (s.setReg x b).dt = s.dt := rfl
@[simp] theorem setReg_st (x : RegIdx) (b : Byte) : (s.setReg x b).st = s.st := rfl
@[simp] theorem setReg_disp (x : RegIdx) (b : Byte) : (s.setReg x b).disp = s.disp := rfl
@[simp] theorem setReg_key (x : RegIdx) (b : Byte) : (s.setReg x b).key = s.key := rfl
@[simp] theorem setReg_keyPrev (x : RegIdx) (b : Byte) : (s.setReg x b).keyPrev = s.keyPrev := rfl
@[simp] theorem setReg_waitX (x : RegIdx) (b : Byte) : (s.setReg x b).waitX = s.waitX := rfl
@[simp] theorem setReg_run (x : RegIdx) (b : Byte) : (s.setReg x b).run = s.run := rfl
@[simp] theorem setReg_faultRec (x : RegIdx) (b : Byte) : (s.setReg x b).faultRec = s.faultRec := rfl
@[simp] theorem setReg_rndDraws (x : RegIdx) (b : Byte) : (s.setReg x b).rndDraws = s.rndDraws := rfl
@[simp] theorem setReg_params (x : RegIdx) (b : Byte) : (s.setReg x b).params = s.params := rfl
@[simp] theorem setReg_peek (x : RegIdx) (b : Byte) (n : Nat) : (s.setReg x b).peek n = s.peek n := rfl
@[simp] theorem setReg_bg (x : RegIdx) (b : Byte) : (s.setReg x b).bg = s.bg := rfl
@[simp] theorem setReg_pixel (x : RegIdx) (b : Byte) (py : Fin 32) (px : Fin 64) : (s.setReg x b).pixel py px = s.pixel py px := rfl

/-! ### setI -/

@[simp] theorem setI_v (a : Word) : (s.setI a).v = s.v := rfl
@[simp] theorem setI_i (a : Word) : (s.setI a).i = a := rfl
@[simp] theorem setI_pc (a : Word) : (s.setI a).pc = s.pc := rfl
@[simp] theorem setI_sp (a : Word) : (s.setI a).sp = s.sp := rfl
@[simp] theorem setI_stack (a : Word) : (s.setI a).stack = s.stack := rfl
@[simp] theorem setI_mem (a : Word) : (s.setI a).mem = s.mem := rfl
@[simp] theorem setI_dt (a : Word) : (s.setI a).dt = s.dt := rfl
@[simp] theorem setI_st (a : Word) : (s.setI a).st = s.st := rfl
@[simp] theorem setI_disp (a : Word) : (s.setI a).disp = s.disp := rfl
@[simp] theorem setI_key (a : Word) : (s.setI a).key = s.key := rfl
@[simp] theorem setI_keyPrev (a : Word) : (s.setI a).keyPrev = s.keyPrev := rfl
@[simp] theorem setI_waitX (a : Word) : (s.setI a).waitX = s.waitX := rfl
@[simp] theorem setI_run (a : Word) : (s.setI a).run = s.run := rfl
@[simp] theorem setI_faultRec (a : Word) : (s.setI a).faultRec = s.faultRec := rfl
@[simp] theorem setI_rndDraws (a : Word) : (s.setI a).rndDraws = s.rndDraws := rfl
@[simp] theorem setI_params (a : Word) : (s.setI a).params = s.params := rfl
@[simp] theorem setI_reg (a : Word) (q : RegIdx) : (s.setI a).reg q = s.reg q := rfl
@[simp] theorem setI_peek (a : Word) (n : Nat) : (s.setI a).peek n = s.peek n := rfl
@[simp] theorem setI_bg (a : Word) : (s.setI a).bg = s.bg := rfl
@[simp] theorem setI_pixel (a : Word) (py : Fin 32) (px : Fin 64) : (s.setI a).pixel py px = s.pixel py px := rfl

/-! ### setDt -/

@[simp] theorem setDt_v (b : Byte) : (s.setDt b).v = s.v := rfl
@[simp] theorem setDt_i (b : Byte) : (s.setDt b).i = s.i := rfl
@[simp] theorem setDt_pc (b : Byte) : (s.setDt b).pc = s.pc := rfl
@[simp] theorem setDt_sp (b : Byte) : (s.setDt b).sp = s.sp := rfl
@[simp] theorem setDt_stack (b : Byte) : (s.setDt b).stack = s.stack := rfl
@[simp] theorem setDt_mem (b : Byte) : (s.setDt b).mem = s.mem := rfl
@[simp] theorem setDt_dt (b : Byte) : (s.setDt b).dt = b := rfl
@[simp] theorem setDt_st (b : Byte) : (s.setDt b).st = s.st := rfl
@[simp] theorem setDt_disp (b : Byte) : (s.setDt b).disp = s.disp := rfl
@[simp] theorem setDt_key (b : Byte) : (s.setDt b).key = s.key := rfl
@[simp] theorem setDt_keyPrev (b : Byte) : (s.setDt b).keyPrev = s.keyPrev := rfl
@[simp] theorem setDt_waitX (b : Byte) : (s.setDt b).waitX = s.waitX := rfl
@[simp] theorem setDt_run (b : Byte) : (s.setDt b).run = s.run := rfl
@[simp] theorem setDt_faultRec (b : Byte) : (s.setDt b).faultRec = s.faultRec := rfl
@[simp] theorem setDt_rndDraws (b : Byte) : (s.setDt b).rndDraws = s.rndDraws := rfl
@[simp] theorem setDt_params (b : Byte) : (s.setDt b).params = s.params := rfl
@[simp] theorem setDt_reg (b : Byte) (q : RegIdx) : (s.setDt b).reg q = s.reg q := rfl
@[simp] theorem setDt_peek (b : Byte) (n : Nat) : (s.setDt b).peek n = s.peek n := rfl
@[simp] theorem setDt_bg (b : Byte) : (s.setDt b).bg = s.bg := rfl
@[simp] theorem setDt_pixel (b : Byte) (py : Fin 32) (px : Fin 64) : (s.setDt b).pixel py px = s.pixel py px := rfl

/-! ### setSt -/

@[simp] theorem setSt_v (b : Byte) : (s.setSt b).v = s.v := rfl
@[simp] theorem setSt_i (b : Byte) : (s.setSt b).i = s.i := rfl
@[simp] theorem setSt_pc (b : Byte) : (s.setSt b).pc = s.pc := rfl
@[simp] theorem setSt_sp (b : Byte) : (s.setSt b).sp = s.sp := rfl
@[simp] theorem setSt_stack (b : Byte) : (s.setSt b).stack = s.stack := rfl
@[simp] theorem setSt_mem (b : Byte) : (s.setSt b).mem = s.mem := rfl
@[simp] theorem setSt_dt (b : Byte) : (s.setSt b).dt = s.dt := rfl
@[simp] theorem setSt_st (b : Byte) : (s.setSt b).st = b := rfl
@[simp] theorem setSt_disp (b : Byte) : (s.setSt b).disp = s.disp := rfl
@[simp] theorem setSt_key (b : Byte) : (s.setSt b).key = s.key := rfl
@[simp] theorem setSt_keyPrev (b : Byte) : (s.setSt b).keyPrev = s.keyPrev := rfl
@[simp] theorem setSt_waitX (b : Byte) : (s.setSt b).waitX = s.waitX := rfl
@[simp] theorem setSt_run (b : Byte) : (s.setSt b).run = s.run := rfl
@[simp] theorem setSt_faultRec (b : Byte) : (s.setSt b).faultRec = s.faultRec := rfl
@[simp] theorem setSt_rndDraws (b : Byte) : (s.setSt b).rndDraws = s.rndDraws := rfl
@[simp] theorem setSt_params (b : Byte) : (s.setSt b).params = s.params := rfl
@[simp] theorem setSt_reg (b : Byte) (q : RegIdx) : (s.setSt b).reg q = s.reg q := rfl
@[simp] theorem setSt_peek (b : Byte) (n : Nat) : (s.setSt b).peek n = s.peek n := rfl
@[simp] theorem setSt_bg (b : Byte) : (s.setSt b).bg = s.bg := rfl
@[simp] theorem setSt_pixel (b : Byte) (py : Fin 32) (px : Fin 64) : (s.setSt b).pixel py px = s.pixel py px := rfl

/-! ### setDisp -/

@[simp] theorem setDisp_v (d : Grid) : (s.setDisp d).v = s.v := rfl
@[simp] theorem setDisp_i (d : Grid) : (s.setDisp d).i = s.i := rfl
@[simp] theorem setDisp_pc (d : Grid) : (s.setDisp d).pc = s.pc := rfl
@[simp] theorem setDisp_sp (d : Grid) : (s.setDisp d).sp = s.sp := rfl
@[simp] theorem setDisp_stack (d : Grid) : (s.setDisp d).stack = s.stack := rfl
@[simp] theorem setDisp_mem (d : Grid) : (s.setDisp d).mem = s.mem := rfl
@[simp] theorem setDisp_dt (d : Grid) : (s.setDisp d).dt = s.dt := rfl
@[simp] theorem setDisp_st (d : Grid) : (s.setDisp d).st = s.st := rfl
@[simp] theorem setDisp_disp (d : Grid) : (s.setDisp d).disp = d := rfl
@[simp] theorem setDisp_key (d : Grid) : (s.setDisp d).key = s.key := rfl
@[simp] theorem setDisp_keyPrev (d : Grid) : (s.setDisp d).keyPrev = s.keyPrev := rfl
@[simp] theorem setDisp_waitX (d : Grid) : (s.setDisp d).waitX = s.waitX := rfl
@[simp] theorem setDisp_run (d : Grid) : (s.setDisp d).run = s.run := rfl
@[simp] theorem setDisp_faultRec (d : Grid) : (s.setDisp d).faultRec = s.faultRec := rfl
@[simp] theorem setDisp_rndDraws (d : Grid) : (s.setDisp d).rndDraws = s.rndDraws := rfl
@[simp] theorem setDisp_params (d : Grid) : (s.setDisp d).params = s.params := rfl
@[simp] theorem setDisp_reg (d : Grid) (q : RegIdx) : (s.setDisp d).reg q = s.reg q := rfl
@[simp] theorem setDisp_peek (d : Grid) (n : Nat) : (s.setDisp d).peek n = s.peek n := rfl
@[simp] theorem setDisp_bg (d : Grid) : (s.setDisp d).bg = s.bg := rfl

/-! ### setPc -/

@[simp] theorem setPc_v (a : Word) : (s.setPc a).v = s.v := rfl
@[simp] theorem setPc_i (a : Word) : (s.setPc a).i = s.i := rfl
@[simp] theorem setPc_pc (a : Word) : (s.setPc a).pc = a := rfl
@[simp] theorem setPc_sp (a : Word) : (s.setPc a).sp = s.sp := rfl
@[simp] theorem setPc_stack (a : Word) : (s.setPc a).stack = s.stack := rfl
@[simp] theorem setPc_mem (a : Word) : (s.setPc a).mem = s.mem := rfl
@[simp] theorem setPc_dt (a : Word) : (s.setPc a).dt = s.dt := rfl
@[simp] theorem setPc_st (a : Word) : (s.setPc a).st = s.st := rfl
@[simp] theorem setPc_disp (a : Word) : (s.setPc a).disp = s.disp := rfl
@[simp] theorem setPc_key (a : Word) : (s.setPc a).key = s.key := rfl
@[simp] theorem setPc_keyPrev (a : Word) : (s.setPc a).keyPrev = s.keyPrev := rfl
@[simp] theorem setPc_waitX (a : Word) : (s.setPc a).waitX = s.waitX := rfl
@[simp] theorem setPc_run (a : Word) : (s.setPc a).run = s.run := rfl
@[simp] theorem setPc_faultRec (a : Word) : (s.setPc a).faultRec = s.faultRec := rfl
@[simp] theorem setPc_rndDraws (a : Word) : (s.setPc a).rndDraws = s.rndDraws := rfl
@[simp] theorem setPc_params (a : Word) : (s.setPc a).params = s.params := rfl
@[simp] theorem setPc_reg (a : Word) (q : RegIdx) : (s.setPc a).reg q = s.reg q := rfl
@[simp] theorem setPc_peek (a : Word) (n : Nat) : (s.setPc a).peek n = s.peek n := rfl
@[simp] theorem setPc_bg (a : Word) : (s.setPc a).bg = s.bg := rfl
@[simp] theorem setPc_pixel (a : Word) (py : Fin 32) (px : Fin 64) : (s.setPc a).pixel py px = s.pixel py px := rfl

/-! ### advance -/

@[simp] theorem advance_v : (s.advance).v = s.v := rfl
@[simp] theorem advance_i : (s.advance).i = s.i := rfl
@[simp] theorem advance_pc : (s.advance).pc = s.pc + 2 := rfl
@[simp] theorem advance_sp : (s.advance).sp = s.sp := rfl
@[simp] theorem advance_stack : (s.advance).stack = s.stack := rfl
@[simp] theorem advance_mem : (s.advance).mem = s.mem := rfl
@[simp] theorem advance_dt : (s.advance).dt = s.dt := rfl
@[simp] theorem advance_st : (s.advance).st = s.st := rfl
@[simp] theorem advance_disp : (s.advance).disp = s.disp := rfl
@[simp] theorem advance_key : (s.advance).key = s.key := rfl
@[simp] theorem advance_keyPrev : (s.advance).keyPrev = s.keyPrev := rfl
@[simp] theorem advance_waitX : (s.advance).waitX = s.waitX := rfl
@[simp] theorem advance_run : (s.advance).run = s.run := rfl
@[simp] theorem advance_faultRec : (s.advance).faultRec = s.faultRec := rfl
@[simp] theorem advance_rndDraws : (s.advance).rndDraws = s.rndDraws := rfl
@[simp] theorem advance_params : (s.advance).params = s.params := rfl
@[simp] theorem advance_reg (q : RegIdx) : (s.advance).reg q = s.reg q := rfl
@[simp] theorem advance_peek (n : Nat) : (s.advance).peek n = s.peek n := rfl
@[simp] theorem advance_bg : (s.advance).bg = s.bg := rfl
@[simp] theorem advance_pixel (py : Fin 32) (px : Fin 64) : (s.advance).pixel py px = s.pixel py px := rfl

/-! ### skipIf -/

@[simp] theorem skipIf_v (c : Bool) : (s.skipIf c).v = s.v := rfl
@[simp] theorem skipIf_i (c : Bool) : (s.skipIf c).i = s.i := rfl
@[simp] theorem skipIf_pc (c : Bool) : (s.skipIf c).pc = if c then s.pc + 4 else s.pc + 2 := rfl
@[simp] theorem skipIf_sp (c : Bool) : (s.skipIf c).sp = s.sp := rfl
@[simp] theorem skipIf_stack (c : Bool) : (s.skipIf c).stack = s.stack := rfl
@[simp] theorem skipIf_mem (c : Bool) : (s.skipIf c).mem = s.mem := rfl
@[simp] theorem skipIf_dt (c : Bool) : (s.skipIf c).dt = s.dt := rfl
@[simp] theorem skipIf_st (c : Bool) : (s.skipIf c).st = s.st := rfl
@[simp] theorem skipIf_disp (c : Bool) : (s.skipIf c).disp = s.disp := rfl
@[simp] theorem skipIf_key (c : Bool) : (s.skipIf c).key = s.key := rfl
@[simp] theorem skipIf_keyPrev (c : Bool) : (s.skipIf c).keyPrev = s.keyPrev := rfl
@[simp] theorem skipIf_waitX (c : Bool) : (s.skipIf c).waitX = s.waitX := rfl
@[simp] theorem skipIf_run (c : Bool) : (s.skipIf c).run = s.run := rfl
@[simp] theorem skipIf_faultRec (c : Bool) : (s.skipIf c).faultRec = s.faultRec := rfl
@[simp] theorem skipIf_rndDraws (c : Bool) : (s.skipIf c).rndDraws = s.rndDraws := rfl
@[simp] theorem skipIf_params (c : Bool) : (s.skipIf c).params = s.params := rfl
@[simp] theorem skipIf_reg (c : Bool) (q : RegIdx) : (s.skipIf c).reg q = s.reg q := rfl
@[simp] theorem skipIf_peek (c : Bool) (n : Nat) : (s.skipIf c).peek n = s.peek n := rfl
@[simp] theorem skipIf_bg (c : Bool) : (s.skipIf c).bg = s.bg := rfl
@[simp] theorem skipIf_pixel (c : Bool) (py : Fin 32) (px : Fin 64) : (s.skipIf c).pixel py px = s.pixel py px := rfl

/-! ### poke -/

@[simp] theorem poke_v (a : Nat) (b : Byte) : (s.poke a b).v = s.v := rfl
@[simp] theorem poke_i (a : Nat) (b : Byte) : (s.poke a b).i = s.i := rfl
@[simp] theorem poke_pc (a : Nat) (b : Byte) : (s.poke a b).pc = s.pc := rfl
@[simp] theorem poke_sp (a : Nat) (b : Byte) : (s.poke a b).sp = s.sp := rfl
@[simp] theorem poke_stack (a : Nat) (b : Byte) : (s.poke a b).stack = s.stack := rfl
@[simp] theorem poke_mem (a : Nat) (b : Byte) : (s.poke a b).mem = s.mem.write s.bg a b := rfl
@[simp] theorem poke_dt (a : Nat) (b : Byte) : (s.poke a b).dt = s.dt := rfl
@[simp] theorem poke_st (a : Nat) (b : Byte) : (s.poke a b).st = s.st := rfl
@[simp] theorem poke_disp (a : Nat) (b : Byte) : (s.poke a b).disp = s.disp := rfl
@[simp] theorem poke_key (a : Nat) (b : Byte) : (s.poke a b).key = s.key := rfl
@[simp] theorem poke_keyPrev (a : Nat) (b : Byte) : (s.poke a b).keyPrev = s.keyPrev := rfl
@[simp] theorem poke_waitX (a : Nat) (b : Byte) : (s.poke a b).waitX = s.waitX := rfl
@[simp] theorem poke_run (a : Nat) (b : Byte) : (s.poke a b).run = s.run := rfl
@[simp] theorem poke_faultRec (a : Nat) (b : Byte) : (s.poke a b).faultRec = s.faultRec := rfl
@[simp] theorem poke_rndDraws (a : Nat) (b : Byte) : (s.poke a b).rndDraws = s.rndDraws := rfl
@[simp] theorem poke_params (a : Nat) (b : Byte) : (s.poke a b).params = s.params := rfl
@[simp] theorem poke_reg (a : Nat) (b : Byte) (q : RegIdx) : (s.poke a b).reg q = s.reg q := rfl
@[simp] theorem poke_bg (a : Nat) (b : Byte) : (s.poke a b).bg = s.bg := rfl
@[simp] theorem poke_pixel (a : Nat) (b : Byte) (py : Fin 32) (px : Fin 64) : (s.poke a b).pixel py px = s.pixel py px := rfl

/-! ### push -/

@[simp] theorem push_v (a : Word) (h : s.sp.val < 16) : (s.push a h).v = s.v := rfl
@[simp] theorem push_i (a : Word) (h : s.sp.val < 16) : (s.push a h).i = s.i := rfl
@[simp] theorem push_pc (a : Word) (h : s.sp.val < 16) : (s.push a h).pc = s.pc := rfl
@[simp] theorem push_sp (a : Word) (h : s.sp.val < 16) : (s.push a h).sp = ⟨s.sp.val + 1, by omega⟩ := rfl
@[simp] theorem push_stack (a : Word) (h : s.sp.val < 16) : (s.push a h).stack = s.stack.set s.sp.val a := rfl
@[simp] theorem push_mem (a : Word) (h : s.sp.val < 16) : (s.push a h).mem = s.mem := rfl
@[simp] theorem push_dt (a : Word) (h : s.sp.val < 16) : (s.push a h).dt = s.dt := rfl
@[simp] theorem push_st (a : Word) (h : s.sp.val < 16) : (s.push a h).st = s.st := rfl
@[simp] theorem push_disp (a : Word) (h : s.sp.val < 16) : (s.push a h).disp = s.disp := rfl
@[simp] theorem push_key (a : Word) (h : s.sp.val < 16) : (s.push a h).key = s.key := rfl
@[simp] theorem push_keyPrev (a : Word) (h : s.sp.val < 16) : (s.push a h).keyPrev = s.keyPrev := rfl
@[simp] theorem push_waitX (a : Word) (h : s.sp.val < 16) : (s.push a h).waitX = s.waitX := rfl
@[simp] theorem push_run (a : Word) (h : s.sp.val < 16) : (s.push a h).run = s.run := rfl
@[simp] theorem push_faultRec (a : Word) (h : s.sp.val < 16) : (s.push a h).faultRec = s.faultRec := rfl
@[simp] theorem push_rndDraws (a : Word) (h : s.sp.val < 16) : (s.push a h).rndDraws = s.rndDraws := rfl
@[simp] theorem push_params (a : Word) (h : s.sp.val < 16) : (s.push a h).params = s.params := rfl
@[simp] theorem push_reg (a : Word) (h : s.sp.val < 16) (q : RegIdx) : (s.push a h).reg q = s.reg q := rfl
@[simp] theorem push_peek (a : Word) (h : s.sp.val < 16) (n : Nat) : (s.push a h).peek n = s.peek n := rfl
@[simp] theorem push_bg (a : Word) (h : s.sp.val < 16) : (s.push a h).bg = s.bg := rfl
@[simp] theorem push_pixel (a : Word) (h : s.sp.val < 16) (py : Fin 32) (px : Fin 64) : (s.push a h).pixel py px = s.pixel py px := rfl

/-! ### pop -/

@[simp] theorem pop_v : (s.pop).v = s.v := rfl
@[simp] theorem pop_i : (s.pop).i = s.i := rfl
@[simp] theorem pop_pc : (s.pop).pc = s.pc := rfl
@[simp] theorem pop_sp : (s.pop).sp = ⟨s.sp.val - 1, by omega⟩ := rfl
@[simp] theorem pop_stack : (s.pop).stack = s.stack := rfl
@[simp] theorem pop_mem : (s.pop).mem = s.mem := rfl
@[simp] theorem pop_dt : (s.pop).dt = s.dt := rfl
@[simp] theorem pop_st : (s.pop).st = s.st := rfl
@[simp] theorem pop_disp : (s.pop).disp = s.disp := rfl
@[simp] theorem pop_key : (s.pop).key = s.key := rfl
@[simp] theorem pop_keyPrev : (s.pop).keyPrev = s.keyPrev := rfl
@[simp] theorem pop_waitX : (s.pop).waitX = s.waitX := rfl
@[simp] theorem pop_run : (s.pop).run = s.run := rfl
@[simp] theorem pop_faultRec : (s.pop).faultRec = s.faultRec := rfl
@[simp] theorem pop_rndDraws : (s.pop).rndDraws = s.rndDraws := rfl
@[simp] theorem pop_params : (s.pop).params = s.params := rfl
@[simp] theorem pop_reg (q : RegIdx) : (s.pop).reg q = s.reg q := rfl
@[simp] theorem pop_peek (n : Nat) : (s.pop).peek n = s.peek n := rfl
@[simp] theorem pop_bg : (s.pop).bg = s.bg := rfl
@[simp] theorem pop_pixel (py : Fin 32) (px : Fin 64) : (s.pop).pixel py px = s.pixel py px := rfl

/-! ### drawn -/

@[simp] theorem drawn_v : (s.drawn).v = s.v := rfl
@[simp] theorem drawn_i : (s.drawn).i = s.i := rfl
@[simp] theorem drawn_pc : (s.drawn).pc = s.pc := rfl
@[simp] theorem drawn_sp : (s.drawn).sp = s.sp := rfl
@[simp] theorem drawn_stack : (s.drawn).stack = s.stack := rfl
@[simp] theorem drawn_mem : (s.drawn).mem = s.mem := rfl
@[simp] theorem drawn_dt : (s.drawn).dt = s.dt := rfl
@[simp] theorem drawn_st : (s.drawn).st = s.st := rfl
@[simp] theorem drawn_disp : (s.drawn).disp = s.disp := rfl
@[simp] theorem drawn_key : (s.drawn).key = s.key := rfl
@[simp] theorem drawn_keyPrev : (s.drawn).keyPrev = s.keyPrev := rfl
@[simp] theorem drawn_waitX : (s.drawn).waitX = s.waitX := rfl
@[simp] theorem drawn_run : (s.drawn).run = s.run := rfl
@[simp] theorem drawn_faultRec : (s.drawn).faultRec = s.faultRec := rfl
@[simp] theorem drawn_rndDraws : (s.drawn).rndDraws = s.rndDraws + 1 := rfl
@[simp] theorem drawn_params : (s.drawn).params = s.params := rfl
@[simp] theorem drawn_reg (q : RegIdx) : (s.drawn).reg q = s.reg q := rfl
@[simp] theorem drawn_peek (n : Nat) : (s.drawn).peek n = s.peek n := rfl
@[simp] theorem drawn_bg : (s.drawn).bg = s.bg := rfl
@[simp] theorem drawn_pixel (py : Fin 32) (px : Fin 64) : (s.drawn).pixel py px = s.pixel py px := rfl

/-! ### latchKeys -/

@[simp] theorem latchKeys_v : (s.latchKeys).v = s.v := rfl
@[simp] theorem latchKeys_i : (s.latchKeys).i = s.i := rfl
@[simp] theorem latchKeys_pc : (s.latchKeys).pc = s.pc := rfl
@[simp] theorem latchKeys_sp : (s.latchKeys).sp = s.sp := rfl
@[simp] theorem latchKeys_stack : (s.latchKeys).stack = s.stack := rfl
@[simp] theorem latchKeys_mem : (s.latchKeys).mem = s.mem := rfl
@[simp] theorem latchKeys_dt : (s.latchKeys).dt = s.dt := rfl
@[simp] theorem latchKeys_st : (s.latchKeys).st = s.st := rfl
@[simp] theorem latchKeys_disp : (s.latchKeys).disp = s.disp := rfl
@[simp] theorem latchKeys_key : (s.latchKeys).key = s.key := rfl
@[simp] theorem latchKeys_keyPrev : (s.latchKeys).keyPrev = s.key := rfl
@[simp] theorem latchKeys_waitX : (s.latchKeys).waitX = s.waitX := rfl
@[simp] theorem latchKeys_run : (s.latchKeys).run = s.run := rfl
@[simp] theorem latchKeys_faultRec : (s.latchKeys).faultRec = s.faultRec := rfl
@[simp] theorem latchKeys_rndDraws : (s.latchKeys).rndDraws = s.rndDraws := rfl
@[simp] theorem latchKeys_params : (s.latchKeys).params = s.params := rfl
@[simp] theorem latchKeys_reg (q : RegIdx) : (s.latchKeys).reg q = s.reg q := rfl
@[simp] theorem latchKeys_peek (n : Nat) : (s.latchKeys).peek n = s.peek n := rfl
@[simp] theorem latchKeys_bg : (s.latchKeys).bg = s.bg := rfl
@[simp] theorem latchKeys_pixel (py : Fin 32) (px : Fin 64) : (s.latchKeys).pixel py px = s.pixel py px := rfl

/-! ### enterWait -/

@[simp] theorem enterWait_v (x : RegIdx) : (s.enterWait x).v = s.v := rfl
@[simp] theorem enterWait_i (x : RegIdx) : (s.enterWait x).i = s.i := rfl
@[simp] theorem enterWait_pc (x : RegIdx) : (s.enterWait x).pc = s.pc := rfl
@[simp] theorem enterWait_sp (x : RegIdx) : (s.enterWait x).sp = s.sp := rfl
@[simp] theorem enterWait_stack (x : RegIdx) : (s.enterWait x).stack = s.stack := rfl
@[simp] theorem enterWait_mem (x : RegIdx) : (s.enterWait x).mem = s.mem := rfl
@[simp] theorem enterWait_dt (x : RegIdx) : (s.enterWait x).dt = s.dt := rfl
@[simp] theorem enterWait_st (x : RegIdx) : (s.enterWait x).st = s.st := rfl
@[simp] theorem enterWait_disp (x : RegIdx) : (s.enterWait x).disp = s.disp := rfl
@[simp] theorem enterWait_key (x : RegIdx) : (s.enterWait x).key = s.key := rfl
@[simp] theorem enterWait_keyPrev (x : RegIdx) : (s.enterWait x).keyPrev = s.keyPrev := rfl
@[simp] theorem enterWait_waitX (x : RegIdx) : (s.enterWait x).waitX = x := rfl
@[simp] theorem enterWait_run (x : RegIdx) : (s.enterWait x).run = .waitingForKey := rfl
@[simp] theorem enterWait_faultRec (x : RegIdx) : (s.enterWait x).faultRec = s.faultRec := rfl
@[simp] theorem enterWait_rndDraws (x : RegIdx) : (s.enterWait x).rndDraws = s.rndDraws := rfl
@[simp] theorem enterWait_params (x : RegIdx) : (s.enterWait x).params = s.params := rfl
@[simp] theorem enterWait_reg (x : RegIdx) (q : RegIdx) : (s.enterWait x).reg q = s.reg q := rfl
@[simp] theorem enterWait_peek (x : RegIdx) (n : Nat) : (s.enterWait x).peek n = s.peek n := rfl
@[simp] theorem enterWait_bg (x : RegIdx) : (s.enterWait x).bg = s.bg := rfl
@[simp] theorem enterWait_pixel (x : RegIdx) (py : Fin 32) (px : Fin 64) : (s.enterWait x).pixel py px = s.pixel py px := rfl

/-! ### setRun -/

@[simp] theorem setRun_v (r : RunState) : (s.setRun r).v = s.v := rfl
@[simp] theorem setRun_i (r : RunState) : (s.setRun r).i = s.i := rfl
@[simp] theorem setRun_pc (r : RunState) : (s.setRun r).pc = s.pc := rfl
@[simp] theorem setRun_sp (r : RunState) : (s.setRun r).sp = s.sp := rfl
@[simp] theorem setRun_stack (r : RunState) : (s.setRun r).stack = s.stack := rfl
@[simp] theorem setRun_mem (r : RunState) : (s.setRun r).mem = s.mem := rfl
@[simp] theorem setRun_dt (r : RunState) : (s.setRun r).dt = s.dt := rfl
@[simp] theorem setRun_st (r : RunState) : (s.setRun r).st = s.st := rfl
@[simp] theorem setRun_disp (r : RunState) : (s.setRun r).disp = s.disp := rfl
@[simp] theorem setRun_key (r : RunState) : (s.setRun r).key = s.key := rfl
@[simp] theorem setRun_keyPrev (r : RunState) : (s.setRun r).keyPrev = s.keyPrev := rfl
@[simp] theorem setRun_waitX (r : RunState) : (s.setRun r).waitX = s.waitX := rfl
@[simp] theorem setRun_run (r : RunState) : (s.setRun r).run = r := rfl
@[simp] theorem setRun_faultRec (r : RunState) : (s.setRun r).faultRec = s.faultRec := rfl
@[simp] theorem setRun_rndDraws (r : RunState) : (s.setRun r).rndDraws = s.rndDraws := rfl
@[simp] theorem setRun_params (r : RunState) : (s.setRun r).params = s.params := rfl
@[simp] theorem setRun_reg (r : RunState) (q : RegIdx) : (s.setRun r).reg q = s.reg q := rfl
@[simp] theorem setRun_peek (r : RunState) (n : Nat) : (s.setRun r).peek n = s.peek n := rfl
@[simp] theorem setRun_bg (r : RunState) : (s.setRun r).bg = s.bg := rfl
@[simp] theorem setRun_pixel (r : RunState) (py : Fin 32) (px : Fin 64) : (s.setRun r).pixel py px = s.pixel py px := rfl

/-! ### raise -/

@[simp] theorem raise_v (k : FaultKind) (o : Option Word) (a : Option Nat) : (s.raise k o a).v = s.v := rfl
@[simp] theorem raise_i (k : FaultKind) (o : Option Word) (a : Option Nat) : (s.raise k o a).i = s.i := rfl
@[simp] theorem raise_pc (k : FaultKind) (o : Option Word) (a : Option Nat) : (s.raise k o a).pc = s.pc := rfl
@[simp] theorem raise_sp (k : FaultKind) (o : Option Word) (a : Option Nat) : (s.raise k o a).sp = s.sp := rfl
@[simp] theorem raise_stack (k : FaultKind) (o : Option Word) (a : Option Nat) : (s.raise k o a).stack = s.stack := rfl
@[simp] theorem raise_mem (k : FaultKind) (o : Option Word) (a : Option Nat) : (s.raise k o a).mem = s.mem := rfl
@[simp] theorem raise_dt (k : FaultKind) (o : Option Word) (a : Option Nat) : (s.raise k o a).dt = s.dt := rfl
@[simp] theorem raise_st (k : FaultKind) (o : Option Word) (a : Option Nat) : (s.raise k o a).st = s.st := rfl
@[simp] theorem raise_disp (k : FaultKind) (o : Option Word) (a : Option Nat) : (s.raise k o a).disp = s.disp := rfl
@[simp] theorem raise_key (k : FaultKind) (o : Option Word) (a : Option Nat) : (s.raise k o a).key = s.key := rfl
@[simp] theorem raise_keyPrev (k : FaultKind) (o : Option Word) (a : Option Nat) : (s.raise k o a).keyPrev = s.keyPrev := rfl
@[simp] theorem raise_waitX (k : FaultKind) (o : Option Word) (a : Option Nat) : (s.raise k o a).waitX = s.waitX := rfl
@[simp] theorem raise_run (k : FaultKind) (o : Option Word) (a : Option Nat) : (s.raise k o a).run = .halted := rfl
@[simp] theorem raise_faultRec (k : FaultKind) (o : Option Word) (a : Option Nat) : (s.raise k o a).faultRec = some ⟨k, s.pc, o, a⟩ := rfl
@[simp] theorem raise_rndDraws (k : FaultKind) (o : Option Word) (a : Option Nat) : (s.raise k o a).rndDraws = s.rndDraws := rfl
@[simp] theorem raise_params (k : FaultKind) (o : Option Word) (a : Option Nat) : (s.raise k o a).params = s.params := rfl
@[simp] theorem raise_reg (k : FaultKind) (o : Option Word) (a : Option Nat) (q : RegIdx) : (s.raise k o a).reg q = s.reg q := rfl
@[simp] theorem raise_peek (k : FaultKind) (o : Option Word) (a : Option Nat) (n : Nat) : (s.raise k o a).peek n = s.peek n := rfl
@[simp] theorem raise_bg (k : FaultKind) (o : Option Word) (a : Option Nat) : (s.raise k o a).bg = s.bg := rfl
@[simp] theorem raise_pixel (k : FaultKind) (o : Option Word) (a : Option Nat) (py : Fin 32) (px : Fin 64) : (s.raise k o a).pixel py px = s.pixel py px := rfl

/-! ### reinit -/

@[simp] theorem reinit_v : (s.reinit).v = .replicate 16 0 := rfl
@[simp] theorem reinit_i : (s.reinit).i = 0 := rfl
@[simp] theorem reinit_pc : (s.reinit).pc = BitVec.ofNat 16 Config.programBase := rfl
@[simp] theorem reinit_sp : (s.reinit).sp = 0 := rfl
@[simp] theorem reinit_stack : (s.reinit).stack = .replicate 16 0 := rfl
@[simp] theorem reinit_mem : (s.reinit).mem = [] := rfl
@[simp] theorem reinit_dt : (s.reinit).dt = 0 := rfl
@[simp] theorem reinit_st : (s.reinit).st = 0 := rfl
@[simp] theorem reinit_disp : (s.reinit).disp = .replicate 32 0 := rfl
@[simp] theorem reinit_key : (s.reinit).key = s.key := rfl
@[simp] theorem reinit_keyPrev : (s.reinit).keyPrev = 0 := rfl
@[simp] theorem reinit_waitX : (s.reinit).waitX = 0 := rfl
@[simp] theorem reinit_run : (s.reinit).run = s.run := rfl
@[simp] theorem reinit_faultRec : (s.reinit).faultRec = none := rfl
@[simp] theorem reinit_rndDraws : (s.reinit).rndDraws = s.rndDraws := rfl
@[simp] theorem reinit_params : (s.reinit).params = s.params := rfl
@[simp] theorem reinit_bg : (s.reinit).bg = s.bg := rfl

/-! ### Reading V[x] after writing it (R20) -/

@[simp] theorem reg_setReg_self (x : RegIdx) (b : Byte) : (s.setReg x b).reg x = b := by
  simp [reg, setReg]

theorem reg_setReg_ne {x r : RegIdx} (b : Byte) (h : r ≠ x) : (s.setReg x b).reg r = s.reg r := by
  have : x.val ≠ r.val := fun e => h (Fin.ext e.symm)
  simp [reg, setReg, this]

/-- V[r] after V[x] is written. -/
theorem reg_setReg (x r : RegIdx) (b : Byte) : (s.setReg x b).reg r = if r = x then b else s.reg r := by
  split_ifs with h
  · subst h; exact reg_setReg_self s r b
  · exact reg_setReg_ne s b h

/-- Two states with the same V[0..15] have the same register file. -/
theorem v_ext {s t : State} (h : ∀ x, s.reg x = t.reg x) : s.v = t.v :=
  Vector.ext fun j hj => h ⟨j, hj⟩

end Sys2Proof.Machine.State
end

