-- ==== Sys2Proof/Laws/Ops.lean ====
section
/-! SUPPORT. One lemma for each shared operation, saying everything it can do: the memory primitives and their
sequences, fetch, the flag writes, the key skip, the poll, the sprite loops. -/
namespace Sys2Proof.Machine
namespace State

variable {s t : State}

/-! ### MemRead and MemWrite (R62) -/

theorem memRead_eq (s : State) (a : Nat) :
    s.memRead a = if a > 0xFFF then .error a else .ok (s.peek a) := rfl

theorem memWrite_eq (s : State) (a : Nat) (b : Byte) :
    s.memWrite a b = if a > 0xFFF then .error a else .ok (s.poke a b) := rfl

theorem peek_poke_same (h : s.mem.wf s.bg) (a : Nat) (b : Byte) : (s.poke a b).peek a = b :=
  Memory.read_write_same h a b

theorem peek_poke_other (h : s.mem.wf s.bg) {a a' : Nat} (b : Byte) (hne : a' ≠ a) :
    (s.poke a b).peek a' = s.peek a' :=
  Memory.read_write_other h b hne

theorem poke_wf (h : s.mem.wf s.bg) {a : Nat} (b : Byte) (ha : a ≤ 0xFFF) :
    (s.poke a b).mem.wf (s.poke a b).bg :=
  Memory.write_wf h b ha

/-! ### Sequences of accesses (R63) -/

/-- The bytes from `base` up. -/
def peeks (s : State) (base n : Nat) : List Byte := (List.range n).map fun j => s.peek (base + j)

theorem peeks_succ (s : State) (base n : Nat) : s.peeks base (n + 1) = s.peek base :: s.peeks (base + 1) n := by
  simp only [peeks, List.range_succ_eq_map, List.map_cons, List.map_map, Nat.add_zero]
  exact congrArg _ (List.map_congr_left fun j _ => by simp [Nat.add_assoc, Nat.add_comm 1])

/-- The reads succeed exactly when the last address is in range, and the address reported is the lowest that is
not. -/
theorem readBytes_eq (s : State) (n : Nat) : ∀ base, s.readBytes base n =
    if 0 < n ∧ base + n - 1 > 0xFFF then .error (max base 0x1000)
    else .ok (s.peeks base n) := by
  induction n with
  | zero => intro base; simp [readBytes, peeks]
  | succ n ih =>
    intro base
    rw [readBytes, memRead_eq, peeks_succ]
    by_cases hb : base > 0xFFF
    · rw [if_pos hb, if_pos ⟨Nat.succ_pos n, by omega⟩, Nat.max_eq_left hb]
    · simp only [if_neg hb, ih]
      by_cases hn : 0 < n ∧ base + 1 + n - 1 > 0xFFF
      · rw [if_pos hn, if_pos ⟨Nat.succ_pos n, by omega⟩, Nat.max_eq_right (by omega), Nat.max_eq_right (by omega)]
      · rw [if_neg hn, if_neg (by omega)]

/-- The state after the bytes are at `base` and up. -/
def pokes (s : State) (base : Nat) (bs : List Byte) : State := { s with mem := s.mem.writeAll s.bg base bs }

/-- The writes succeed exactly when the last address is in range; the address reported is the lowest that is not, and
then no state is answered at all. -/
theorem writeBytes_eq (bs : List Byte) : ∀ (s : State) (base : Nat), s.writeBytes base bs =
    if 0 < bs.length ∧ base + bs.length - 1 > 0xFFF then .error (max base 0x1000)
    else .ok (s.pokes base bs) := by
  induction bs with
  | nil => intro s base; simp [writeBytes, pokes, Memory.writeAll]
  | cons b bs ih =>
    intro s base
    rw [writeBytes, memWrite_eq, List.length_cons]
    by_cases hb : base > 0xFFF
    · rw [if_pos hb, if_pos ⟨Nat.succ_pos _, by omega⟩, Nat.max_eq_left hb]
    · simp only [if_neg hb, ih]
      by_cases hn : 0 < bs.length ∧ base + 1 + bs.length - 1 > 0xFFF
      · rw [if_pos hn, if_pos ⟨Nat.succ_pos _, by omega⟩, Nat.max_eq_right (by omega), Nat.max_eq_right (by omega)]
      · rw [if_neg hn, if_neg (by omega)]
        rfl

theorem pokes_wf (h : s.mem.wf s.bg) {base : Nat} {bs : List Byte}
    (hl : base + bs.length ≤ 0x1000) : (s.pokes base bs).mem.wf (s.pokes base bs).bg :=
  Memory.writeAll_wf h hl

/-- MEM after the bytes are stored: byte `j` at `base + j`, every other address as it was. -/
theorem peek_pokes (h : s.mem.wf s.bg) {base : Nat} {bs : List Byte}
    (hl : base + bs.length ≤ 0x1000) (a : Nat) : (s.pokes base bs).peek a =
      if h : base ≤ a ∧ a - base < bs.length then bs[a - base]'h.2 else s.peek a :=
  Memory.read_writeAll h hl a

/-! ### Fetch (R90) -/

theorem fetch_eq (s : State) : s.fetch =
    if s.pc.toNat > 0xFFF then .error s.pc.toNat
    else if s.pc.toNat = 0xFFF then .error 0x1000
    else .ok (wordOfBytes (s.peek s.pc.toNat) (s.peek (s.pc.toNat + 1))) := by
  rw [fetch, memRead_eq]
  by_cases h1 : s.pc.toNat > 0xFFF
  · simp [h1]
  · simp only [if_neg h1, memRead_eq]
    by_cases h2 : s.pc.toNat = 0xFFF
    · rw [if_pos (by omega), if_pos h2, h2]
    · rw [if_neg (by omega), if_neg h2]

/-! ### The two writes of the flag instructions (R160) -/

/-- V[r] after a result and a flag are written: the two writes meet only at x = F. -/
theorem reg_writeResultFlag (s : State) (x r : RegIdx) (b : Byte) (c : Bool) :
    (s.writeResultFlag x b c).reg r =
      if r = 15 ∧ (x ≠ 15 ∨ s.params.vfWriteOrder = .flagLast) then flagByte c
      else if r = x then b else s.reg r := by
  unfold writeResultFlag
  cases s.params.vfWriteOrder <;> simp only [reg_setReg] <;>
    by_cases h1 : r = 15 <;> by_cases h2 : r = x <;> by_cases h3 : x = 15 <;> simp_all

/-- Writing a result and a flag changes only V[0..15]. -/
theorem writeResultFlag_frame (s : State) (x : RegIdx) (b : Byte) (c : Bool) :
    ∃ v, s.writeResultFlag x b c = { s with v := v } := by
  unfold writeResultFlag
  cases s.params.vfWriteOrder <;> exact ⟨_, rfl⟩

/-! ### Loading V0..Vx (R240) -/

/-- V[r] after bytes are loaded from V[j] up. -/
theorem reg_loadRegs (bs : List Byte) : ∀ (s : State) (j : Nat) (r : RegIdx), (s.loadRegs j bs).reg r =
    if h : j ≤ r.val ∧ r.val - j < bs.length then bs[r.val - j]'h.2 else s.reg r := by
  induction bs with
  | nil => intro s j r; simp [loadRegs]
  | cons b bs ih =>
    intro s j r
    rw [loadRegs, ih]
    have hr : ({ s with v := s.v.setIfInBounds j b } : State).reg r = if j = r.val then b else s.reg r := by
      simp [reg, Vector.getElem_setIfInBounds]
    rw [hr]
    by_cases h1 : j = r.val
    · simp [h1]
    · by_cases h2 : j ≤ r.val ∧ r.val - j < bs.length + 1
      · obtain ⟨h3, h4⟩ := h2
        rw [dif_pos ⟨by omega, by omega⟩, dif_pos ⟨h3, by simpa using h4⟩]
        have : r.val - j = (r.val - (j + 1)) + 1 := by omega
        simp only [this, List.getElem_cons_succ]
      · rw [dif_neg (by omega), dif_neg (by rw [List.length_cons]; omega), if_neg h1]

/-- Loading registers changes only V[0..15]. -/
theorem loadRegs_frame (bs : List Byte) : ∀ (s : State) (j : Nat), ∃ v, s.loadRegs j bs = { s with v := v } := by
  induction bs with
  | nil => exact fun s _ => ⟨s.v, rfl⟩
  | cons b bs ih => exact fun s j => ih { s with v := s.v.setIfInBounds j b } (j + 1)

theorem length_regsUpTo (s : State) (x : RegIdx) : (s.regsUpTo x).length = x.val + 1 := by
  simp [regsUpTo]

theorem getElem_regsUpTo (s : State) (x : RegIdx) {j : Nat} (h : j < (s.regsUpTo x).length) :
    (s.regsUpTo x)[j] = s.reg ⟨j, by rw [length_regsUpTo] at h; omega⟩ := by
  simp [regsUpTo, reg]

/-! ### The poll (R213) -/

/-- There is a new key exactly when some key is down that was up at the previous poll. -/
theorem newKey_none : s.newKey = none ↔ s.key &&& ~~~s.keyPrev = 0 := by
  simp only [newKey, List.find?_eq_none, List.mem_range, Bool.not_eq_true]
  constructor
  · intro h
    exact BitVec.eq_of_getLsbD_eq fun k hk => by rw [h k hk]; simp
  · intro h k _
    rw [h]; simp

/-- The key a poll finds is new, and no lower key is. -/
theorem newKey_some {k : Nat} : s.newKey = some k ↔
    k < 16 ∧ (s.key &&& ~~~s.keyPrev).getLsbD k = true ∧
      ∀ j < k, (s.key &&& ~~~s.keyPrev).getLsbD j = false := by
  simp only [newKey, List.find?_range_eq_some, List.mem_range, Bool.not_eq_true']
  tauto

end State

/-! ### The key skips (R144, R145) -/

theorem skipOnKey_eq (i : Instr) (x : RegIdx) (down : Bool) (s : State) : skipOnKey i x down s =
    if (s.reg x).toNat > 0xF then .next (s.raise .keyIndexOutOfRange (some (encode i)) none)
    else .next (s.skipIf (s.keyDown (s.reg x).toNat == down)) := by
  unfold skipOnKey State.keyOperand
  by_cases h : (s.reg x).toNat > 0xF <;> simp [h, raiseIn]

/-! ### The sprite loops (R192) -/

theorem Grid.at_toggle (d : Grid) (y y' : Fin 32) (x x' : Fin 64) :
    (d.toggle y x).at y' x' = (d.at y' x' ^^ decide (y = y' ∧ x = x')) := by
  unfold Grid.at Grid.toggle
  by_cases hy : y = y'
  · subst hy
    simp [Fin.ext_iff, eq_comm]
  · have : y.val ≠ y'.val := fun e => hy (Fin.ext e)
    simp [this, hy]

end Sys2Proof.Machine
end

