-- ==== Sys2Proof/Laws/Display.lean ====
section
/-! SUPPORT. What the sprite loops of R192 do to the grid and the collision bit. The loops invert one pixel after
another; since a sprite is at most 8 x 15 pixels, no pixel is met twice, so the result is an XOR pixel by pixel. -/
namespace Sys2Proof.Machine

/-- A position of the grid: row and column. -/
abbrev Pos := Fin 32 × Fin 64

/-- The loops' body over a list of positions. -/
def blitAt (p : Blit) (q : Pos) : Blit := blitPixel p q.1 q.2

theorem at_blitAt (p : Blit) (q : Pos) (y : Fin 32) (x : Fin 64) :
    (blitAt p q).1.at y x = (p.1.at y x ^^ decide (q = (y, x))) := by
  rw [blitAt, blitPixel, Grid.at_toggle]
  exact congrArg _ (decide_eq_decide.mpr ⟨fun h => Prod.ext h.1 h.2, fun h => by simp [h]⟩)

/-- Blitting distinct positions inverts exactly those pixels. -/
theorem at_foldl_blitAt {l : List Pos} (h : l.Nodup) (y : Fin 32) (x : Fin 64) : ∀ p : Blit,
    (l.foldl blitAt p).1.at y x = (p.1.at y x ^^ decide ((y, x) ∈ l)) := by
  induction l with
  | nil => intro p; simp
  | cons q l ih =>
    obtain ⟨hq, hl⟩ := List.nodup_cons.mp h
    intro p
    rw [List.foldl_cons, ih hl, at_blitAt]
    by_cases e : q = (y, x)
    · simp [← e, hq]
    · simp [e, Ne.symm e]

/-- Blitting distinct positions collides exactly when one of those pixels was set before. -/
theorem collision_foldl_blitAt {l : List Pos} (h : l.Nodup) : ∀ p : Blit,
    (l.foldl blitAt p).2 = (p.2 || decide (∃ q ∈ l, p.1.at q.1 q.2 = true)) := by
  induction l with
  | nil => intro p; simp
  | cons q l ih =>
    obtain ⟨hq, hl⟩ := List.nodup_cons.mp h
    intro p
    have hc : (blitAt p q).2 = (p.2 || p.1.at q.1 q.2) := rfl
    have hrest : (∃ r ∈ l, (blitAt p q).1.at r.1 r.2 = true) ↔ ∃ r ∈ l, p.1.at r.1 r.2 = true :=
      exists_congr fun r => and_congr_right fun hr => by
        rw [at_blitAt]
        have : q ≠ r := fun e => hq (e ▸ hr)
        simp [this]
    rw [List.foldl_cons, ih hl, hc, Bool.or_assoc]
    simp [hrest]

/-- The positions of a sprite row's 1 bits, from the left. -/
def rowPos (row : Byte) (y : Fin 32) (x0 : Nat) : List Pos :=
  ((List.range 8).filter fun b => row.getLsbD (7 - b)).map fun b => (y, Fin.ofNat 64 (x0 + b))

/-- The positions of a sprite's 1 bits, row by row. -/
def spritePos (y0 x0 : Nat) : List Byte → List Pos
  | [] => []
  | row :: rows => rowPos row (Fin.ofNat 32 y0) x0 ++ spritePos (y0 + 1) x0 rows

theorem blitRow_eq (p : Blit) (row : Byte) (y : Fin 32) (x0 : Nat) :
    blitRow p row y x0 = (rowPos row y x0).foldl blitAt p := by
  rw [blitRow, rowPos, List.foldl_map, List.foldl_filter]
  rfl

theorem blitRows_eq (rows : List Byte) : ∀ (p : Blit) (y0 x0 : Nat),
    blitRows p y0 x0 rows = (spritePos y0 x0 rows).foldl blitAt p := by
  induction rows with
  | nil => exact fun _ _ _ => rfl
  | cons r rs ih => intro p y0 x0; rw [blitRows, ih, spritePos, List.foldl_append, blitRow_eq]

theorem mem_rowPos {row : Byte} {y py : Fin 32} {x0 : Nat} {px : Fin 64} (h0 : x0 < 64) :
    (py, px) ∈ rowPos row y x0 ↔
      py = y ∧ (px.val + 64 - x0) % 64 < 8 ∧ row.getLsbD (7 - (px.val + 64 - x0) % 64) = true := by
  simp only [rowPos, List.mem_map, List.mem_filter, List.mem_range, Prod.mk.injEq]
  constructor
  · rintro ⟨b, ⟨h1, h2⟩, rfl, rfl⟩
    have : ((Fin.ofNat 64 (x0 + b)).val + 64 - x0) % 64 = b := by simp only [Fin.val_ofNat]; omega
    rw [this]; exact ⟨rfl, h1, h2⟩
  · rintro ⟨rfl, h1, h2⟩
    exact ⟨_, ⟨h1, h2⟩, rfl, Fin.ext (by simp only [Fin.val_ofNat]; omega)⟩

/-- A pixel is under a 1 bit of the sprite exactly when, counted from the start position modulo the grid's size, it is
in one of the rows and in one of the 8 columns, and that row has a 1 bit in that column. -/
theorem mem_spritePos {x0 : Nat} (h0 : x0 < 64) (py : Fin 32) (px : Fin 64) (rows : List Byte) : ∀ y0,
    (py, px) ∈ spritePos y0 x0 rows ↔ ∃ r, ∃ h : r < rows.length, py.val = (y0 + r) % 32 ∧
      (px.val + 64 - x0) % 64 < 8 ∧ rows[r].getLsbD (7 - (px.val + 64 - x0) % 64) = true := by
  induction rows with
  | nil => intro y0; simp [spritePos]
  | cons r rs ih =>
    intro y0
    rw [spritePos, List.mem_append, mem_rowPos h0, ih]
    constructor
    · rintro (⟨rfl, h1, h2⟩ | ⟨k, hk, h1, h2, h3⟩)
      · exact ⟨0, by simp, by simp, h1, h2⟩
      · exact ⟨k + 1, by simpa using hk, by rw [h1]; omega, h2, h3⟩
    · rintro ⟨k, hk, h1, h2, h3⟩
      cases k with
      | zero => exact .inl ⟨Fin.ext (by simp [h1]), h2, h3⟩
      | succ k => exact .inr ⟨k, by simpa using hk, by rw [h1]; omega, h2, h3⟩

/-- A sprite of at most 32 rows meets no pixel twice (R192, "No overlap"). -/
theorem nodup_spritePos {x0 : Nat} (h0 : x0 < 64) (rows : List Byte) : ∀ y0, rows.length ≤ 32 →
    (spritePos y0 x0 rows).Nodup := by
  induction rows with
  | nil => exact fun _ _ => List.nodup_nil
  | cons r rs ih =>
    intro y0 hl
    rw [List.length_cons] at hl
    rw [spritePos, List.nodup_append]
    refine ⟨?_, ih _ (by omega), ?_⟩
    · refine List.Nodup.map_on (fun a ha b hb e => ?_) (List.Nodup.filter _ List.nodup_range)
      simp only [List.mem_filter, List.mem_range] at ha hb
      have := congrArg (fun q : Pos => q.2.val) e
      simp only [Fin.val_ofNat] at this
      omega
    · rintro ⟨ay, ax⟩ ha ⟨_, _⟩ hb e
      cases e
      rw [mem_rowPos h0] at ha
      obtain ⟨k, hk, h1, -⟩ := (mem_spritePos h0 _ _ _ _).mp hb
      have := congrArg Fin.val ha.1
      simp only [Fin.val_ofNat] at this
      omega

end Sys2Proof.Machine
end

