-- ==== Sys2Proof/Laws/PerInstr.lean ====
section
/-! SUPPORT. Statements for all instructions, one lemma per constructor. -/
namespace Sys2Proof.Laws.EncodingRow

/-- The word of an instruction matches the instruction's own row of R97. -/
def Statement (i : Instr) : Prop := (rowOf i).covers (encode i) = true

theorem covers_F000 {op pattern : Word} (h : wordAddr (fieldH op) 0#12 = pattern) :
    OpcodeRow.covers ⟨pattern, 0xF000#16⟩ op = true := by simp [OpcodeRow.covers, and_F000, h]

theorem covers_F00F {op pattern : Word} (h : wordXyn (fieldH op) 0 0 (fieldN op) = pattern) :
    OpcodeRow.covers ⟨pattern, 0xF00F#16⟩ op = true := by simp [OpcodeRow.covers, and_F00F, h]

theorem covers_F0FF {op pattern : Word} (h : wordXkk (fieldH op) 0 (fieldKk op) = pattern) :
    OpcodeRow.covers ⟨pattern, 0xF0FF#16⟩ op = true := by simp [OpcodeRow.covers, and_F0FF, h]

theorem sys (nnn : Addr12) : Statement (.sys nnn) :=
  covers_F000 (by simp only [encode, fieldH_wordAddr]; rfl)

theorem cls : Statement (.cls) :=
  rfl

theorem ret : Statement (.ret) :=
  rfl

theorem jp (nnn : Addr12) : Statement (.jp nnn) :=
  covers_F000 (by simp only [encode, fieldH_wordAddr]; rfl)

theorem call (nnn : Addr12) : Statement (.call nnn) :=
  covers_F000 (by simp only [encode, fieldH_wordAddr]; rfl)

theorem seVxKk (x : RegIdx) (kk : Byte) : Statement (.seVxKk x kk) :=
  covers_F000 (by simp only [encode, fieldH_wordXkk]; rfl)

theorem sneVxKk (x : RegIdx) (kk : Byte) : Statement (.sneVxKk x kk) :=
  covers_F000 (by simp only [encode, fieldH_wordXkk]; rfl)

theorem seVxVy (x y : RegIdx) : Statement (.seVxVy x y) :=
  covers_F00F (by simp only [encode, fieldH_wordXyn, fieldN_wordXyn]; rfl)

theorem ldVxKk (x : RegIdx) (kk : Byte) : Statement (.ldVxKk x kk) :=
  covers_F000 (by simp only [encode, fieldH_wordXkk]; rfl)

theorem addVxKk (x : RegIdx) (kk : Byte) : Statement (.addVxKk x kk) :=
  covers_F000 (by simp only [encode, fieldH_wordXkk]; rfl)

theorem ldVxVy (x y : RegIdx) : Statement (.ldVxVy x y) :=
  covers_F00F (by simp only [encode, fieldH_wordXyn, fieldN_wordXyn]; rfl)

theorem orVxVy (x y : RegIdx) : Statement (.orVxVy x y) :=
  covers_F00F (by simp only [encode, fieldH_wordXyn, fieldN_wordXyn]; rfl)

theorem andVxVy (x y : RegIdx) : Statement (.andVxVy x y) :=
  covers_F00F (by simp only [encode, fieldH_wordXyn, fieldN_wordXyn]; rfl)

theorem xorVxVy (x y : RegIdx) : Statement (.xorVxVy x y) :=
  covers_F00F (by simp only [encode, fieldH_wordXyn, fieldN_wordXyn]; rfl)

theorem addVxVy (x y : RegIdx) : Statement (.addVxVy x y) :=
  covers_F00F (by simp only [encode, fieldH_wordXyn, fieldN_wordXyn]; rfl)

theorem sub (x y : RegIdx) : Statement (.sub x y) :=
  covers_F00F (by simp only [encode, fieldH_wordXyn, fieldN_wordXyn]; rfl)

theorem shr (x y : RegIdx) : Statement (.shr x y) :=
  covers_F00F (by simp only [encode, fieldH_wordXyn, fieldN_wordXyn]; rfl)

theorem subn (x y : RegIdx) : Statement (.subn x y) :=
  covers_F00F (by simp only [encode, fieldH_wordXyn, fieldN_wordXyn]; rfl)

theorem shl (x y : RegIdx) : Statement (.shl x y) :=
  covers_F00F (by simp only [encode, fieldH_wordXyn, fieldN_wordXyn]; rfl)

theorem sneVxVy (x y : RegIdx) : Statement (.sneVxVy x y) :=
  covers_F00F (by simp only [encode, fieldH_wordXyn, fieldN_wordXyn]; rfl)

theorem ldINnn (nnn : Addr12) : Statement (.ldINnn nnn) :=
  covers_F000 (by simp only [encode, fieldH_wordAddr]; rfl)

theorem jpV0Nnn (nnn : Addr12) : Statement (.jpV0Nnn nnn) :=
  covers_F000 (by simp only [encode, fieldH_wordAddr]; rfl)

theorem rnd (x : RegIdx) (kk : Byte) : Statement (.rnd x kk) :=
  covers_F000 (by simp only [encode, fieldH_wordXkk]; rfl)

theorem drw (x y : RegIdx) (n : Nibble) : Statement (.drw x y n) :=
  covers_F000 (by simp only [encode, fieldH_wordXyn]; rfl)

theorem skp (x : RegIdx) : Statement (.skp x) :=
  covers_F0FF (by simp only [encode, fieldH_wordXkk, fieldKk_wordXkk]; rfl)

theorem sknp (x : RegIdx) : Statement (.sknp x) :=
  covers_F0FF (by simp only [encode, fieldH_wordXkk, fieldKk_wordXkk]; rfl)

theorem ldVxDt (x : RegIdx) : Statement (.ldVxDt x) :=
  covers_F0FF (by simp only [encode, fieldH_wordXkk, fieldKk_wordXkk]; rfl)

theorem ldVxK (x : RegIdx) : Statement (.ldVxK x) :=
  covers_F0FF (by simp only [encode, fieldH_wordXkk, fieldKk_wordXkk]; rfl)

theorem ldDtVx (x : RegIdx) : Statement (.ldDtVx x) :=
  covers_F0FF (by simp only [encode, fieldH_wordXkk, fieldKk_wordXkk]; rfl)

theorem ldStVx (x : RegIdx) : Statement (.ldStVx x) :=
  covers_F0FF (by simp only [encode, fieldH_wordXkk, fieldKk_wordXkk]; rfl)

theorem addIVx (x : RegIdx) : Statement (.addIVx x) :=
  covers_F0FF (by simp only [encode, fieldH_wordXkk, fieldKk_wordXkk]; rfl)

theorem ldFVx (x : RegIdx) : Statement (.ldFVx x) :=
  covers_F0FF (by simp only [encode, fieldH_wordXkk, fieldKk_wordXkk]; rfl)

theorem ldBVx (x : RegIdx) : Statement (.ldBVx x) :=
  covers_F0FF (by simp only [encode, fieldH_wordXkk, fieldKk_wordXkk]; rfl)

theorem ldMemIVx (x : RegIdx) : Statement (.ldMemIVx x) :=
  covers_F0FF (by simp only [encode, fieldH_wordXkk, fieldKk_wordXkk]; rfl)

theorem ldVxMemI (x : RegIdx) : Statement (.ldVxMemI x) :=
  covers_F0FF (by simp only [encode, fieldH_wordXkk, fieldKk_wordXkk]; rfl)

end Sys2Proof.Laws.EncodingRow
end

