-- ==== Sys2Proof/Laws/Step.lean ====
section
/-! SUPPORT. What a step and a transaction answer, case by case, so that no later proof unfolds them. -/
namespace Sys2Proof.Machine

variable {s : State}

/-! ### STEP by run-state (R51) -/

theorem step_idle (h : s.run = .idle) : step s = .next s := by simp [step, h]

theorem step_halted (h : s.run = .halted) : step s = .next s := by simp [step, h]

theorem step_normal (h : s.run = .normal) : step s = cycle s := by simp [step, h]

theorem step_waiting (h : s.run = .waitingForKey) : step s = .next (poll s) := by simp [step, h]

/-! ### One cycle by phase (R252) -/

theorem cycle_fetch_error {a : Nat} (h : s.fetch = .error a) :
    cycle s = .next (s.raise .addressOutOfRange none (some a)) := by simp [cycle, h]

theorem cycle_decode_error {op : Word} {e : DecodeError} (h : s.fetch = .ok op) (hd : decode op = .error e) :
    cycle s = .next (s.raise .unknownOpcode (some op) none) := by simp [cycle, h, hd]

theorem cycle_exec {op : Word} {i : Instr} (h : s.fetch = .ok op) (hd : decode op = .ok i) :
    cycle s = exec i s := by simp [cycle, h, hd]

/-! ### The poll (R213) -/

theorem poll_none (h : s.newKey = none) : poll s = s.latchKeys := by simp [poll, h]

theorem poll_some {k : Nat} (h : s.newKey = some k) :
    poll s = ((s.setReg s.waitX (BitVec.ofNat 8 k)).latchKeys.setRun .normal).advance := by simp [poll, h]

/-! ### LOAD (R282) -/

theorem load_too_large {bytes : List Byte} (h : bytes.length > Config.maxProgram) :
    load bytes s = (s.setRun .idle, .programTooLarge) := by simp [load, h]

theorem load_ok {bytes : List Byte} (h : bytes.length ≤ Config.maxProgram) :
    load bytes s = ((s.reinit.pokes Config.programBase bytes).setRun .normal, .ok) := by
  rw [load, if_neg (Nat.not_lt.mpr h)]; rfl

/-! ### Transactions (R50) -/

theorem transact_load (bytes : List Byte) : transact (.load bytes) s = .next (load bytes s) := rfl

theorem transact_step {t : State} (h : step s = .next t) :
    transact .step s = .next (t, .stepped (stepStatus s t)) := by simp [transact, h]

theorem transact_tick : transact .tick s = .next (tick s, .none) := rfl

theorem transact_setKey (k : Nat) (p : Bool) : transact (.setKey k p) s = .next (setKey k p s, .none) := rfl

theorem transact_snapshot : transact .snapshot s = .next (s, .grid s.disp) := rfl

theorem transact_soundActive : transact .soundActive s = .next (s, .bit (soundActive s)) := rfl

theorem afterTransaction_next {tr : Transaction} {t : State} {r : Response} (h : transact tr s = .next (t, r)) :
    afterTransaction tr s = .next t := by simp [afterTransaction, h]

/-! ### Schedules (R12, R58) -/

@[simp] theorem Schedule.nth_finite (trs : List Transaction) (n : Nat) : (Schedule.finite trs).nth n = trs[n]? := rfl

@[simp] theorem Schedule.nth_infinite (trs : Nat → Transaction) (n : Nat) :
    (Schedule.infinite trs).nth n = some (trs n) := rfl

@[simp] theorem Schedule.run_zero (sch : Schedule) : sch.run s 0 = .next s := rfl

theorem Schedule.run_succ {sch : Schedule} {n : Nat} {t : State} {tr : Transaction} (h : sch.run s n = .next t)
    (hn : sch.nth n = some tr) : sch.run s (n + 1) = afterTransaction tr t := by simp [Schedule.run, h, hn]

theorem Schedule.run_succ_ended {sch : Schedule} {n : Nat} (hn : sch.nth n = none) :
    sch.run s (n + 1) = sch.run s n := by
  rw [Schedule.run, hn]; cases sch.run s n <;> rfl

@[simp] theorem runSchedule_nil : runSchedule [] s = .next s := rfl

theorem runSchedule_cons {tr : Transaction} {trs : List Transaction} {t : State}
    (h : afterTransaction tr s = .next t) : runSchedule (tr :: trs) s = runSchedule trs t := by
  simp [runSchedule, h]

end Sys2Proof.Machine
end

