-- ==== Sys2Proof/Tests/Slice0.lean ====
section
/-! SUPPORT. The model's own tests: ill-formed terms, decoded words, one-step results taken from 95_test_vectors.md, and
for each statement with hypotheses a state that meets them. -/
namespace Sys2Proof.Tests

open Sys2Proof Sys2Proof.Machine

/-- The state a result gives; a stop would give the state at reset. -/
def nextOf (r : Result) : State :=
  match r with
  | .next t => t
  | .fault _ => State.reset
  | .refused _ => State.reset

/-- A running engine with nothing loaded. -/
def start : State := { State.reset with run := .normal }

/-- The state after a running engine has fetched and run one word at PC. -/
def after (s : State) (w : Nat) : State := nextOf (step (s.withFetchWord 16 w))

/-- `start` with V1, V2 and VF at the given values. -/
def withRegs (v1 v2 vf : Byte) : State := ((start.setReg 1 v1).setReg 2 v2).setReg 15 vf

/-- `start` with I and one byte at I. -/
def withI (i : Word) (b : Byte) : State := (start.setI i).poke i.toNat b

/-- `start` with PC at `pc`. -/
def atPc (pc : Word) : State := start.setPc pc

/-- `start` with other behaviour parameters. -/
def withParams (p : Params) : State := { start with params := p }

/-- `start` with `k` entries on the call stack, the last of them `a`. -/
def withStack (k : Fin 16) (a : Word) : State :=
  { start with sp := ⟨k.val + 1, by omega⟩, stack := start.stack.set k a }

/-- V1 and VF after a word. -/
def resultAndFlag (s : State) (w : Nat) : Byte × Byte := ((after s w).reg 1, (after s w).vf)

/-! ### Ill-formed terms (R99) -/

theorem test_sys_0e0_is_ill_formed : (Instr.sys 0x0E0).wellFormed = false := by decide
theorem test_sys_0ee_is_ill_formed : (Instr.sys 0x0EE).wellFormed = false := by decide
theorem test_sys_0ef_is_well_formed : (Instr.sys 0x0EF).wellFormed = true := by decide

/-! ### Decoding: one word of every constructor, written from the patterns of R97 -/

theorem test_decode_control :
    decode 0x01E0 = .ok (.sys 0x1E0) ∧ decode 0x00E0 = .ok .cls ∧ decode 0x00EE = .ok .ret ∧
    decode 0x1ABC = .ok (.jp 0xABC) ∧ decode 0x2DEF = .ok (.call 0xDEF) ∧ decode 0xB250 = .ok (.jpV0Nnn 0x250) := by
  decide

theorem test_decode_skips :
    decode 0x3142 = .ok (.seVxKk 1 0x42) ∧ decode 0x4A97 = .ok (.sneVxKk 10 0x97) ∧
    decode 0x5120 = .ok (.seVxVy 1 2) ∧ decode 0x9CD0 = .ok (.sneVxVy 12 13) ∧
    decode 0xE19E = .ok (.skp 1) ∧ decode 0xEBA1 = .ok (.sknp 11) := by decide

theorem test_decode_loads_and_logic :
    decode 0x6A42 = .ok (.ldVxKk 10 0x42) ∧ decode 0x7F81 = .ok (.addVxKk 15 0x81) ∧
    decode 0x8120 = .ok (.ldVxVy 1 2) ∧ decode 0x8341 = .ok (.orVxVy 3 4) ∧ decode 0x8562 = .ok (.andVxVy 5 6) ∧
    decode 0x8783 = .ok (.xorVxVy 7 8) := by decide

theorem test_decode_arithmetic :
    decode 0x89A4 = .ok (.addVxVy 9 10) ∧ decode 0x8BC5 = .ok (.sub 11 12) ∧ decode 0x8DE6 = .ok (.shr 13 14) ∧
    decode 0x8F07 = .ok (.subn 15 0) ∧ decode 0x812E = .ok (.shl 1 2) ∧ decode 0xC40F = .ok (.rnd 4 0x0F) := by
  decide

theorem test_decode_display_and_timers :
    decode 0xDEF9 = .ok (.drw 14 15 9) ∧ decode 0xF507 = .ok (.ldVxDt 5) ∧ decode 0xF30A = .ok (.ldVxK 3) ∧
    decode 0xF615 = .ok (.ldDtVx 6) ∧ decode 0xF718 = .ok (.ldStVx 7) := by decide

theorem test_decode_index :
    decode 0xAFFF = .ok (.ldINnn 0xFFF) ∧ decode 0xF81E = .ok (.addIVx 8) ∧ decode 0xF929 = .ok (.ldFVx 9) ∧
    decode 0xFA33 = .ok (.ldBVx 10) ∧ decode 0xFE55 = .ok (.ldMemIVx 14) ∧ decode 0xFF65 = .ok (.ldVxMemI 15) := by
  decide

theorem test_decode_unknown_words :
    decode 0x5121 = .error (.unknownOpcode 0x5121) ∧ decode 0x8128 = .error (.unknownOpcode 0x8128) ∧
    decode 0x812F = .error (.unknownOpcode 0x812F) ∧ decode 0x912E = .error (.unknownOpcode 0x912E) ∧
    decode 0xE19F = .error (.unknownOpcode 0xE19F) ∧ decode 0xF130 = .error (.unknownOpcode 0xF130) ∧
    decode 0xF000 = .error (.unknownOpcode 0xF000) := by decide

theorem test_decode_bytes_high_first :
    decodeBytes [0x60, 0x05, 0xAA] = .ok (.ldVxKk 0 0x05, [0xAA]) ∧ decodeBytes [0x60] = .error .truncated := by
  decide

/-! ### Fetch and the step (V-DEC, V-FLT) -/

theorem test_fetch_at_last_word : (after (atPc 0xFFE) 0x00E0).pc = 0x1000 := by decide

theorem test_fetch_at_odd_pc : (after (atPc 0x201) 0x6005).pc = 0x203 ∧ (after (atPc 0x201) 0x6005).reg 0 = 5 := by
  decide

theorem test_fetch_fault_reports_second_byte :
    (nextOf (step (atPc 0xFFF))).faultRec = some ⟨.addressOutOfRange, 0xFFF, none, some 0x1000⟩ := by decide

theorem test_unknown_word_halts :
    (after start 0x5121).faultRec = some ⟨.unknownOpcode, 0x200, some 0x5121, none⟩ ∧
    (after start 0x5121).run = .halted ∧ (after start 0x5121).pc = 0x200 := by decide

theorem test_step_at_power_up_not_running :
    transact .step State.reset = .next (State.reset, .stepped .notRunning) := by rfl

/-! ### Control transfer (V-CF, W7) -/

theorem test_sys_passes_on : (after (atPc 0x300) 0x0123).pc = 0x302 := by decide

theorem test_sys_mode_fault_raises :
    (after (withParams { defaultParams with sysMode := .fault }) 0x0123).faultRec =
      some ⟨.unknownOpcode, 0x200, some 0x0123, none⟩ := by decide

theorem test_ret_pops : (after (withStack 1 0x456) 0x00EE).pc = 0x456 ∧ (after (withStack 1 0x456) 0x00EE).sp = 1 := by
  decide

theorem test_ret_on_empty_stack :
    (after start 0x00EE).faultRec = some ⟨.stackUnderflow, 0x200, some 0x00EE, none⟩ := by decide

theorem test_jp_odd_target : (after start 0x1201).pc = 0x201 := by decide

theorem test_call_pushes :
    (after { atPc 0x204 with sp := 3 } 0x2400).stack[3] = 0x206 ∧ (after { atPc 0x204 with sp := 3 } 0x2400).sp = 4 ∧
    (after { atPc 0x204 with sp := 3 } 0x2400).pc = 0x400 := by decide

theorem test_call_on_full_stack :
    (after { start with sp := 16 } 0x2200).faultRec = some ⟨.stackOverflow, 0x200, some 0x2200, none⟩ ∧
    (after { start with sp := 16 } 0x2200).sp = 16 := by decide

theorem test_jp_v0_passes_12_bits : (after (start.setReg 0 0xFF) 0xBFFF).pc = 0x10FE := by decide

theorem test_jp_v0_ignores_x : (after ((start.setReg 0 2).setReg 3 9) 0xB300).pc = 0x302 := by decide

/-! ### Skips (V-SKIP) -/

theorem test_se_byte : (after (withRegs 0x42 0 0) 0x3142).pc = 0x204 ∧ (after (withRegs 0x42 0 0) 0x3143).pc = 0x202 := by
  decide

theorem test_sne_byte : (after (withRegs 0x42 0 0) 0x4142).pc = 0x202 ∧ (after (withRegs 0x42 0 0) 0x4143).pc = 0x204 := by
  decide

theorem test_se_register : (after (withRegs 3 3 0) 0x5120).pc = 0x204 ∧ (after (withRegs 3 4 0) 0x5120).pc = 0x202 := by
  decide

theorem test_sne_register : (after (withRegs 3 3 0) 0x9110).pc = 0x202 ∧ (after (withRegs 3 4 0) 0x9120).pc = 0x204 := by
  decide

theorem test_skp_on_key :
    (after (Machine.setKey 3 true (start.setReg 0 3)) 0xE09E).pc = 0x204 ∧
    (after (start.setReg 0 3) 0xE09E).pc = 0x202 := by decide

theorem test_skp_bad_index :
    (after (start.setReg 0 0x10) 0xE09E).faultRec = some ⟨.keyIndexOutOfRange, 0x200, some 0xE09E, none⟩ := by decide

theorem test_sknp_on_key :
    (after (start.setReg 0 3) 0xE0A1).pc = 0x204 ∧
    (after (Machine.setKey 3 true (start.setReg 0 3)) 0xE0A1).pc = 0x202 := by decide

/-! ### Registers (V-ALU, W4, W5) -/

theorem test_ld_byte : (after start 0x6A42).reg 10 = 0x42 := by decide

theorem test_add_byte_keeps_vf : (after ((start.setReg 0 0xFE).setReg 15 0x77) 0x7005).reg 0 = 0x03 ∧
    (after ((start.setReg 0 0xFE).setReg 15 0x77) 0x7005).vf = 0x77 := by decide

theorem test_add_byte_to_vf : (after (withRegs 0 0 0xFF) 0x7F01).vf = 0x00 := by decide

theorem test_ld_register : (after (withRegs 0 0x99 0) 0x8120).reg 1 = 0x99 := by decide

theorem test_or : resultAndFlag (withRegs 0x0F 0xF0 0x5A) 0x8121 = (0xFF, 0x5A) := by decide

theorem test_and : resultAndFlag (withRegs 0x3C 0x0F 0x5A) 0x8122 = (0x0C, 0x5A) := by decide

theorem test_xor : (after (withRegs 0xFF 0x0F 0) 0x8123).reg 1 = 0xF0 ∧ (after (withRegs 0xAB 0 0) 0x8113).reg 1 = 0 := by
  decide

theorem test_add_register :
    resultAndFlag (withRegs 0xFF 0x01 0) 0x8124 = (0x00, 1) ∧ resultAndFlag (withRegs 0x7F 0x01 9) 0x8124 = (0x80, 0) := by
  decide

theorem test_add_register_with_vf :
    (after (withRegs 0xF5 0 0x10) 0x8F14).vf = 1 ∧ resultAndFlag (withRegs 0x01 0 0xFF) 0x81F4 = (0x00, 1) := by decide

theorem test_sub :
    resultAndFlag (withRegs 5 3 0) 0x8125 = (2, 1) ∧ resultAndFlag (withRegs 0x01 0x02 9) 0x8125 = (0xFF, 0) := by decide

theorem test_sub_equal_and_into_vf :
    resultAndFlag (withRegs 7 7 0) 0x8125 = (0, 1) ∧ (after (withRegs 0x03 0 0x02) 0x8F15).vf = 0 := by decide

theorem test_subn :
    resultAndFlag (withRegs 3 5 0) 0x8127 = (2, 1) ∧ resultAndFlag (withRegs 5 3 9) 0x8127 = (0xFE, 0) := by decide

theorem test_subn_equal : resultAndFlag (withRegs 9 9 0) 0x8127 = (0, 1) := by decide

theorem test_shr :
    resultAndFlag (withRegs 0xFF 0 0) 0x8106 = (0x7F, 1) ∧ resultAndFlag (withRegs 0x80 0x01 9) 0x8126 = (0x40, 0) := by
  decide

theorem test_shr_vf : (after (withRegs 0 0 0x03) 0x8F06).vf = 1 := by decide

theorem test_shl :
    resultAndFlag (withRegs 0xFF 0 0) 0x810E = (0xFE, 1) ∧ resultAndFlag (withRegs 0x7F 0 9) 0x810E = (0xFE, 0) := by
  decide

theorem test_shl_vf : (after (withRegs 0 0 0x40) 0x8F0E).vf = 0 := by decide

theorem test_rnd_masks_its_draw :
    (nextOf (rndWith 0xB7 4 0x0F start)).reg 4 = 0x07 ∧ (nextOf (rndWith 0xFF 4 0x00 start)).reg 4 = 0x00 := by decide

theorem test_rnd_draws_once : (after start 0xC40F).rndDraws = 1 := by rfl

/-! ### Display (W2, V-DRW) -/

theorem test_cls : (after { start with disp := .replicate 32 0x8000000000000001 } 0x00E0).disp = .replicate 32 0 := by
  decide

set_option maxRecDepth 4000 in
theorem test_drw_wraps_right :
    (after ((withI 0x300 0xFF).setReg 0 60) 0xD011).disp[0] = 0xF00000000000000F#64 := by decide

set_option maxRecDepth 4000 in
theorem test_drw_collision :
    (after ({ withI 0x300 0x80 with disp := start.disp.set 5 0x60#64 }.setReg 0 5 |>.setReg 1 5) 0xD011).disp[5] =
      0x40#64 ∧
    (after ({ withI 0x300 0x80 with disp := start.disp.set 5 0x60#64 }.setReg 0 5 |>.setReg 1 5) 0xD011).vf = 1 := by
  decide

/-! ### Timers and keys (V-TK, W6) -/

theorem test_ld_from_dt : (after (start.setDt 0x3C) 0xF507).reg 5 = 0x3C := by decide

theorem test_ld_dt : (after (start.setReg 5 0x21) 0xF515).dt = 0x21 := by decide

theorem test_ld_st : (after (start.setReg 5 1) 0xF518).st = 1 ∧ soundActive (after (start.setReg 5 1) 0xF518) = true := by
  decide

theorem test_tick : (tick ((start.setDt 5).setSt 0)).dt = 4 ∧ (tick ((start.setDt 5).setSt 0)).st = 0 := by decide

theorem test_wait_entry_stays : (after start 0xF30A).run = .waitingForKey ∧ (after start 0xF30A).pc = 0x200 := by decide

theorem test_poll_takes_lowest_new_key :
    (poll { start with run := .waitingForKey, waitX := 3, key := 0x0204 }).reg 3 = 2 ∧
    (poll { start with run := .waitingForKey, waitX := 3, key := 0x0204 }).pc = 0x202 := by decide

theorem test_poll_ignores_held_key :
    (poll { start with run := .waitingForKey, waitX := 3, key := 0x0080, keyPrev := 0x0080 }).run = .waitingForKey := by
  decide

/-! ### Index and memory (V-MEM) -/

theorem test_ld_i : (after start 0xAFFF).i = 0xFFF := by decide

theorem test_add_i :
    (after ((start.setI 0xFFF).setReg 0 1) 0xF01E).i = 0x1000 ∧
    (after ((start.setI 0xFFFF).setReg 0 1) 0xF01E).i = 0x0000 := by decide

theorem test_ld_f :
    (after (start.setReg 0 0xF) 0xF029).i = 0x09B ∧ (after (start.setReg 0 0x10) 0xF029).i = 0x0A0 := by decide

theorem test_font_glyph_a :
    (List.range 5).map (fun r => start.peek (0x082 + r)) = [0xF0, 0x90, 0xF0, 0x90, 0x90] := by decide

theorem test_bcd :
    (List.range 3).map (fun r => (after ((start.setI 0x300).setReg 0 255) 0xF033).peek (0x300 + r)) = [2, 5, 5] := by
  decide

theorem test_bcd_out_of_range :
    (after ((start.setI 0xFFE).setReg 0 255) 0xF033).faultRec =
      some ⟨.addressOutOfRange, 0x200, some 0xF033, some 0x1000⟩ ∧
    (after ((start.setI 0xFFE).setReg 0 255) 0xF033).peek 0xFFE = 0 := by decide

theorem test_store_registers :
    (after ((start.setI 0x050).setReg 0 0xFF) 0xF055).peek 0x050 = 0xFF ∧
    (after ((start.setI 0x050).setReg 0 0xFF) 0xF055).i = 0x050 := by decide

theorem test_store_increments_i :
    (after ((withParams { defaultParams with memIncrementsI := true }).setI 0x300) 0xF255).i = 0x303 := by decide

theorem test_load_registers :
    (after (withI 0x300 0x02) 0xF065).reg 0 = 2 ∧ (after (start.setI 0x050) 0xF465).reg 4 = 0xF0 := by decide

theorem test_load_out_of_range :
    (after ((start.setI 0x1000).setReg 0 7) 0xF065).faultRec =
      some ⟨.addressOutOfRange, 0x200, some 0xF065, some 0x1000⟩ ∧
    (after ((start.setI 0x1000).setReg 0 7) 0xF065).reg 0 = 7 := by decide

/-! ### LOAD (W1) -/

theorem test_load_places_bytes :
    (List.range 4).map (fun j => (load [0xAA, 0xBB, 0xCC] State.reset).1.peek (0x200 + j)) = [0xAA, 0xBB, 0xCC, 0] ∧
    (load [0xAA, 0xBB, 0xCC] State.reset).1.run = .normal := by decide

/-! ### Schedules (W6, R12) -/

/-- TICK for ever, from DT = 5: two ticks later DT = 3. -/
theorem test_infinite_schedule_of_ticks :
    (nextOf ((Schedule.infinite fun _ => .tick).run (start.setDt 5) 2)).dt = 3 := by decide

theorem test_finite_schedule_ends :
    (nextOf ((Schedule.finite [.tick]).run (start.setDt 5) 2)).dt = 4 := by decide

/-! ### Witnesses: the hypotheses of each statement, met together

`nextOf (exec i s)` is the state the instruction leads to, so that `exec i s = .next t` holds of it. -/

theorem witness_DecodeInvertsEncode : (Instr.drw 15 14 13).wellFormed = true := by decide

theorem witness_EncodeInvertsDecode : decode 0xDFED = .ok (.drw 15 14 13) := by decide

theorem witness_DecodeFollowsOpcodeMap :
    decode 0xE1A1 = .ok (.sknp 1) ∧ decode 0xF066 = .error (.unknownOpcode 0xF066) := by decide

theorem witness_MemoryPrimitives :
    (withI 0x300 5).mem.wf (withI 0x300 5).bg ∧ 0x1000 > 0xFFF ∧ 0xFFF ≤ 0xFFF := by decide

theorem witness_CanonicalMemoriesAreEqual :
    Memory.wf start.bg [(0x300, 5), (0x301, 6)] ∧
    ∀ a, Memory.read start.bg [(0x300, 5), (0x301, 6)] a = Memory.read start.bg [(0x300, 5), (0x301, 6)] a :=
  ⟨by decide, fun _ => rfl⟩

/-- LD [I],V1 at I = 0xFFE, then a fetch of the two bytes stored. -/
theorem witness_StoreSeenByFetch :
    let s := (withRegs 0xE0 0 0).setI 0xFFE
    let t := nextOf (exec (.ldMemIVx 1) s)
    let u := t.setPc 0xFFE
    s.mem.wf s.bg ∧ s.i.toNat + 1 ≤ 0xFFF ∧ exec (.ldMemIVx 1) s = .next t ∧ u.mem = t.mem ∧ u.params = t.params ∧
      u.pc.toNat = s.indexAddr + 0 := by
  refine ⟨by decide, by decide, rfl, rfl, rfl, rfl⟩

theorem witness_FetchReadsWordAtPc :
    (atPc 0xFFE).run = .normal ∧ (atPc 0xFFE).fetch = .ok 0x0000 ∧ (atPc 0xFFF).pc.toNat = 0xFFF ∧
    (atPc 0x1000).pc.toNat > 0xFFF := by decide

theorem witness_StepRunsDecodedInstruction :
    let s := start.withFetchWord 16 0x6A42
    s.run = .normal ∧ s.fetch = .ok 0x6A42 ∧ decode 0x6A42 = .ok (.ldVxKk 10 0x42) := by decide

theorem witness_StepHaltsOnUnknownWord :
    let s := start.withFetchWord 16 0x812F
    s.run = .normal ∧ s.fetch = .ok 0x812F ∧ decode 0x812F = .error (.unknownOpcode 0x812F) := by decide

theorem witness_PlacedWordIsFetched :
    (atPc 0xFFE).mem.wf (atPc 0xFFE).bg ∧ (atPc 0xFFE).pc.toNat ≤ 0xFFE ∧ 0xFF65 < 65536 ∧
    decodeTableWord 16 0xFF65 = some (.ldVxMemI 15) := by decide

theorem witness_PcFollowsItsClass :
    instrFault (.jp 0xFFF) start = none ∧ exec (.jp 0xFFF) start = .next (nextOf (exec (.jp 0xFFF) start)) ∧
    (atPc 0xFFF).pc.toNat > 0xFFE := ⟨by decide, rfl, by decide⟩

/-- A range fault of LD [I],VF at I = 0xFF1, and the same word at I = 0xFF0. -/
theorem witness_CycleFaultsExactly :
    let s := (start.setI 0xFF1).withFetchWord 16 0xFF55
    let u := (start.setI 0xFF0).withFetchWord 16 0xFF55
    s.run = .normal ∧ step s = .next (nextOf (step s)) ∧
      cycleFault s = some (.addressOutOfRange, some 0xFF55, some 0x1000) ∧
    u.run = .normal ∧ step u = .next (nextOf (step u)) ∧ cycleFault u = none := by
  refine ⟨rfl, rfl, by decide, rfl, rfl, by decide⟩

/-- A running state with a byte stored and a return address pushed meets the invariant. -/
theorem witness_invariant : (withI 0x300 5).Inv where
  memWf := by decide
  pcBound := by decide
  stackBound := by decide
  waitPc := by decide
  runningClean := fun _ => rfl
  haltedRecord := nofun
  recordLegal := nofun

theorem witness_StepKeepsInvariant :
    (withI 0x300 5).Inv ∧ step (withI 0x300 5) = .next (nextOf (step (withI 0x300 5))) := ⟨witness_invariant, rfl⟩

theorem witness_TransactionKeepsInvariant :
    (withI 0x300 5).Inv ∧
    transact (.load [0x12, 0x00]) (withI 0x300 5) = .next (load [0x12, 0x00] (withI 0x300 5)) :=
  ⟨witness_invariant, rfl⟩

theorem witness_LoadPlacesProgram : (List.replicate 0xE00 (1 : Byte)).length ≤ 0xE00 := by
  rw [List.length_replicate]

theorem witness_LoadRejectsLongProgram : (List.replicate 0xE01 (1 : Byte)).length > 0xE00 := by
  rw [List.length_replicate]; decide

theorem witness_SetKeySetsOneKey : 16 > 15 ∧ 15 ≤ 15 ∧ 0 ≤ 15 ∧ 0 ≠ 15 := by decide

theorem witness_StepWhileNotRunning :
    State.reset.run = .idle ∧ ({ start with run := .halted } : State).run = .halted := by decide

theorem witness_StepReportsStatus :
    let s := start.withFetchWord 16 0xF30A
    let u := start.withFetchWord 16 0x00EE
    s.run = .normal ∧ step s = .next (nextOf (step s)) ∧ s.fetch = .ok 0xF30A ∧ decode 0xF30A = .ok (.ldVxK 3) ∧
      cycleFault s = none ∧ u.run = .normal ∧ step u = .next (nextOf (step u)) ∧ cycleFault u ≠ none := by
  refine ⟨rfl, rfl, by decide, by decide, by decide, rfl, rfl, by decide⟩

/-- CLS on a set pixel. -/
theorem witness_OnlyClsDrwLoadChangeDisplay :
    let s := { start with disp := start.disp.set 0 1#64 }.withFetchWord 16 0x00E0
    let t := nextOf (step s)
    transact .step s = .next (t, .stepped .executed) ∧ t.disp ≠ s.disp := by
  exact ⟨rfl, by decide⟩

/-- One instruction for each clause, with the part it changes. -/
theorem witness_SpecialStateWriters :
    let changes (i : Instr) (s : State) : State := nextOf (exec i s)
    let s := start
    (changes (.ldINnn 0xFFF) s).i ≠ s.i ∧ (changes (.call 0x300) s).sp ≠ s.sp ∧
    (changes (.call 0x300) s).stack ≠ s.stack ∧ (changes (.ldDtVx 1) (withRegs 1 0 0)).dt ≠ s.dt ∧
    (changes (.ldStVx 1) (withRegs 1 0 0)).st ≠ s.st ∧ (changes (.ldBVx 1) ((withRegs 1 0 0).setI 0x300)).mem ≠ s.mem ∧
    (changes (.ldVxK 3) s).waitX ≠ s.waitX ∧ exec (.rnd 1 0) s = .next (changes (.rnd 1 0) s) ∧
    (changes (.rnd 1 0) s).rndDraws ≠ s.rndDraws := by
  refine ⟨by decide, by decide, by decide, by decide, by decide, by decide, by decide, rfl, ?_⟩
  show 1 ≠ 0
  decide

theorem witness_FlagRegisterWriters :
    exec (.addVxVy 1 2) (withRegs 0xFF 1 0) = .next (nextOf (exec (.addVxVy 1 2) (withRegs 0xFF 1 0))) ∧
    (nextOf (exec (.addVxVy 1 2) (withRegs 0xFF 1 0))).vf ≠ (withRegs 0xFF 1 0).vf := ⟨rfl, by decide⟩

theorem witness_KeyWaitIsOnlySuspension :
    let s := start
    let t := nextOf (exec (.ldVxK 3) s)
    let u : State := { start with run := .waitingForKey, key := 0x0080 }
    s.run = .normal ∧ exec (.ldVxK 3) s = .next t ∧ t.run = .waitingForKey ∧ u.run = .waitingForKey ∧
      transact .step u = .next (poll u, .stepped .executed) ∧ (poll u).run ≠ .waitingForKey := by
  refine ⟨rfl, rfl, rfl, rfl, rfl, by decide⟩

theorem witness_SysFollowsItsMode :
    start.params.sysMode = .nop ∧ (withParams { defaultParams with sysMode := .fault }).params.sysMode = .fault := by
  decide

theorem witness_CallPushesReturnAddress : ({ start with sp := 15 } : State).sp.val = (15 : Fin 16).val := by decide

theorem witness_RetPopsReturnAddress : (withStack 15 0x456).sp.val = (15 : Fin 16).val + 1 := by decide

theorem witness_StackLimitsFault : ({ start with sp := 16 } : State).sp.val = 16 ∧ start.sp.val = 0 := by decide

theorem witness_CallThenRetReturns :
    let s : State := { start with sp := 15 }
    let t := nextOf (exec (.call 0x300) s)
    s.sp.val = (15 : Fin 16).val ∧ exec (.call 0x300) s = .next t ∧ t.sp = t.sp ∧ t.stack[15] = t.stack[15] :=
  ⟨rfl, rfl, rfl, rfl⟩

theorem witness_KeySkips : ((start.setReg 0 0xF).reg 0).toNat ≤ 0xF := by decide

theorem witness_KeySkipsFaultOnBadIndex : ((start.setReg 0 0x10).reg 0).toNat > 0xF := by decide

theorem witness_ArithmeticWrapsModulo256 : (14 : RegIdx) ≠ 15 := by decide

/-- Each of the two sources: the operand is the register the parameter names. -/
theorem witness_ShiftsByOne :
    let s := withRegs 0x80 0x01 0
    let u : State := { s with params := { defaultParams with shiftSource := .vy } }
    (s.params.shiftSource = .vx → (0x80 : Byte) = s.reg 1) ∧ (s.params.shiftSource = .vy → (0x80 : Byte) = s.reg 2) ∧
    (u.params.shiftSource = .vx → (0x01 : Byte) = u.reg 1) ∧ (u.params.shiftSource = .vy → (0x01 : Byte) = u.reg 2) ∧
    (1 : RegIdx) ≠ 15 := by decide

theorem witness_FlagAndResultOrder :
    let s := withRegs 0xF5 0 0x10
    let u : State := { s with params := { defaultParams with vfWriteOrder := .resultLast, shiftSource := .vy } }
    (s.params.shiftSource = .vx → (0x10 : Byte) = s.vf) ∧ (s.params.shiftSource = .vy → (0x10 : Byte) = s.reg 1) ∧
    s.params.vfWriteOrder = .flagLast ∧
    (u.params.shiftSource = .vx → (0xF5 : Byte) = u.vf) ∧ (u.params.shiftSource = .vy → (0xF5 : Byte) = u.reg 1) ∧
    u.params.vfWriteOrder = .resultLast := by decide

/-- A sprite that ends at the last byte of memory, and no sprite at all; a sprite over a set pixel, and one over an
empty display. -/
theorem witness_DrwXorsSprite :
    let s := { withI 0x300 0x80 with disp := start.disp.set 0 1#64 }
    ((2 : Nibble).toNat = 0 ∨ (start.setI 0xFFE).i.toNat + (2 : Nibble).toNat ≤ 0x1000) ∧
    ((0 : Nibble).toNat = 0 ∨ (start.setI 0xFFFF).i.toNat + (0 : Nibble).toNat ≤ 0x1000) ∧
    (s.pixel 0 0 = true ∧ s.spriteBit 1 2 1 0 0 = true) ∧
    ¬∃ py px, start.pixel py px = true ∧ start.spriteBit 1 2 0 py px = true := by
  refine ⟨by decide, by decide, by decide, ?_⟩
  rintro ⟨py, px, -, h⟩
  simp [State.spriteBit] at h

/-- The sprite of V-DRW drawn at (60, 0) on an empty display, so that the first draw sets pixels. -/
theorem witness_SecondDrawRestoresDisplay :
    let s := (withI 0x300 0xFF).setReg 0 60
    let t := nextOf (exec (.drw 0 1 1) s)
    ((1 : Nibble).toNat = 0 ∨ s.i.toNat + (1 : Nibble).toNat ≤ 0x1000) ∧ exec (.drw 0 1 1) s = .next t ∧
      t.i = s.i ∧ t.reg 0 = s.reg 0 ∧ t.reg 1 = s.reg 1 ∧
      (∀ j : Nat, j < (1 : Nibble).toNat → t.peek (s.i.toNat + j) = s.peek (s.i.toNat + j)) ∧
      s.pixel 0 60 = false ∧ t.pixel 0 60 = true := by
  refine ⟨by decide, rfl, by rfl, by rfl, by rfl, fun j hj => rfl, by decide, by rfl⟩

/-- A draw that sets no pixel. -/
theorem witness_SecondDrawRestoresDisplay_empty :
    let s := start.setI 0xFFFF
    let t := nextOf (exec (.drw 0 1 0) s)
    (0 : Nibble).toNat = 0 ∧ exec (.drw 0 1 0) s = .next t ∧ ¬∃ py px, s.pixel py px = false ∧ t.pixel py px = true :=
  ⟨rfl, rfl, fun ⟨_, _, h, h'⟩ => Bool.noConfusion (h.symm.trans h')⟩

theorem witness_PollWithoutNewKeyWaits :
    let s : State := { start with run := .waitingForKey, key := 0x8000, keyPrev := 0x8001 }
    s.run = .waitingForKey ∧ ∀ k < 16, s.keyDown k = true → s.keyPrev.getLsbD k = true := by decide

theorem witness_PollWithNewKeyCompletes :
    let s : State := { start with run := .waitingForKey, key := 0x8001, keyPrev := 0x0001 }
    s.run = .waitingForKey ∧ 15 < 16 ∧ s.keyDown 15 = true ∧ s.keyPrev.getLsbD 15 = false ∧
      ∀ j < 15, s.keyDown j = true → s.keyPrev.getLsbD j = true := by decide

theorem witness_BcdStoresThreeDigits :
    (withI 0xFFD 5).mem.wf (withI 0xFFD 5).bg ∧ (withI 0xFFD 5).i.toNat + 2 ≤ 0xFFF := by decide

theorem witness_StoreRegistersToMemory :
    (withI 0xFF0 5).mem.wf (withI 0xFF0 5).bg ∧ (withI 0xFF0 5).i.toNat + (15 : RegIdx).val ≤ 0xFFF := by decide

theorem witness_LoadRegistersFromMemory : (start.setI 0xFF0).i.toNat + (15 : RegIdx).val ≤ 0xFFF := by decide

theorem witness_RangeFaultsAreWhole :
    (13 : Nibble).toNat ≥ 1 ∧ (start.setI 0xFF4).i.toNat + (13 : Nibble).toNat - 1 > 0xFFF ∧
    (start.setI 0xFFE).i.toNat + 2 > 0xFFF ∧ (start.setI 0xFF1).i.toNat + (15 : RegIdx).val > 0xFFF ∧
    (start.setI 0xFFFF).i.toNat + (0 : RegIdx).val > 0xFFF := by decide

theorem witness_StoreThenLoadRestores :
    let s := (withRegs 1 2 3).setI 0xFF0
    let t := nextOf (exec (.ldMemIVx 15) s)
    s.mem.wf s.bg ∧ s.i.toNat + (15 : RegIdx).val ≤ 0xFFF ∧ exec (.ldMemIVx 15) s = .next t ∧ t.i = s.i ∧
      ∀ j : Nat, j ≤ (15 : RegIdx).val → t.peek (s.indexAddr + j) = t.peek (s.indexAddr + j) := by
  refine ⟨by decide, by decide, rfl, by rfl, fun _ _ => rfl⟩

theorem witness_EveryScheduleRuns :
    (Schedule.infinite fun _ => .step).nth 1000 = some .step ∧ (Schedule.finite [.tick]).nth 0 = some .tick ∧
    (Schedule.finite [.tick]).nth 1 = none := by decide

theorem witness_SchedulesKeepInvariant :
    (withI 0x300 5).Inv ∧
    (Schedule.infinite fun _ => .tick).run (withI 0x300 5) 1 = .next (tick (withI 0x300 5)) := ⟨witness_invariant, rfl⟩

theorem witness_ScheduleRunsByItsBeginnings : [Transaction.tick, .step].length ≤ 2 := by decide

end Sys2Proof.Tests
end

section
/-! PROOFS. The host's two observers, SNAPSHOT and SOUND_ACTIVE (R54, R55). -/
namespace Sys2Proof.Machine

/-- A row of DISP is read the same way in the grid SNAPSHOT answers and in the state (R30, R54). -/
@[simp] theorem State.at_disp (s : State) (y : Fin 32) (x : Fin 64) : s.disp.at y x = s.pixel y x := rfl

/-- The sound-active output of R55, as a statement about ST. -/
@[simp] theorem soundActive_eq_true_iff (s : State) : soundActive s = true ↔ s.st.toNat > 0 := decide_eq_true_iff

/-- Settles O24: the grid answered is DISP itself and the bit answered is the test of ST, each beside the state as it
was. -/
theorem observersHaveNoEffect : Obligations.ObserversHaveNoEffect := by
  intro s
  constructor
  · exact ⟨s.disp, transact_snapshot, s.at_disp⟩
  · exact ⟨soundActive s, transact_soundActive, soundActive_eq_true_iff s⟩

end Sys2Proof.Machine
end

section
/-! PROOFS. The fetch phase of a step (R90). -/
namespace Sys2Proof.Machine

variable {s : State}

namespace State

/-- R90's last sentence, with the word that is read. -/
theorem fetch_eq_ok_iff {op : Word} : s.fetch = .ok op ↔
    s.pc.toNat ≤ 0xFFE ∧ wordOfBytes (s.peek s.pc.toNat) (s.peek (s.pc.toNat + 1)) = op := by
  rw [fetch_eq]
  split_ifs with hhi hlo
  · exact ⟨nofun, fun ⟨hpc, _⟩ => absurd hpc (by omega)⟩
  · exact ⟨nofun, fun ⟨hpc, _⟩ => absurd hpc (by omega)⟩
  · have hpc : s.pc.toNat ≤ 0xFFE := by omega
    simp [hpc]

theorem fetch_of_pc_gt (h : s.pc.toNat > 0xFFF) : s.fetch = .error s.pc.toNat := by
  rw [fetch_eq, if_pos h]

theorem fetch_of_pc_eq (h : s.pc.toNat = 0xFFF) : s.fetch = .error (s.pc.toNat + 1) := by
  rw [fetch_eq, if_neg (by omega), if_pos h, h]

end State

/-- A fetch fault puts PC, no opcode and the failing address on record (R90, R253). -/
theorem step_fetch_error_faultRec {a : Nat} (hrun : s.run = .normal) (h : s.fetch = .error a) :
    ∃ t, step s = .next t ∧ t.faultRec = some ⟨.addressOutOfRange, s.pc, none, some a⟩ :=
  ⟨_, (step_normal hrun).trans (cycle_fetch_error h), State.raise_faultRec ..⟩

/-- Settles O9: the two reads of R90 are in range exactly up to PC = 0xFFE, and each of the two ways to fail is a
fetch fault at its own address. -/
theorem fetchReadsWordAtPc : Obligations.FetchReadsWordAtPc := by
  intro s hrun
  refine ⟨⟨?_, ?_⟩, ?_, ?_, ?_⟩
  · rintro ⟨op, hop⟩
    exact (State.fetch_eq_ok_iff.mp hop).1
  · intro hpc
    exact ⟨_, State.fetch_eq_ok_iff.mpr ⟨hpc, rfl⟩⟩
  · intro op hop
    obtain ⟨-, rfl⟩ := State.fetch_eq_ok_iff.mp hop
    exact toNat_wordOfBytes _ _
  · intro hpc
    exact step_fetch_error_faultRec hrun (State.fetch_of_pc_gt hpc)
  · intro hpc
    exact step_fetch_error_faultRec hrun (State.fetch_of_pc_eq hpc)

end Sys2Proof.Machine
end

section
/-! PROOFS. The display: what CLS does (R190), and which transactions can change DISP (R194). -/
namespace Sys2Proof.Machine

variable {s t : State}

/-! ### CLS (R190) -/

namespace State

@[simp] theorem setDisp_pixel (d : Grid) (y : Fin 32) (x : Fin 64) : (s.setDisp d).pixel y x = d.at y x := rfl

/-- A new DISP and the step past the instruction touch the pixels and PC alone. -/
theorem onlyChanges_setDisp_advance (d : Grid) :
    onlyChanges (fun p => p = .pc ∨ ∃ y x, p = .pixel y x) s (s.setDisp d).advance := by
  intro p hp
  cases p with
  | pc => exact absurd (.inl rfl) hp
  | pixel y x => exact absurd (.inr ⟨y, x, rfl⟩) hp
  | _ => rfl

end State

@[simp] theorem Grid.at_replicate_zero (y : Fin 32) (x : Fin 64) : Grid.at (.replicate 32 0#64) y x = false := by
  simp [Grid.at]

theorem exec_cls : exec .cls s = .next (s.setDisp (.replicate 32 0)).advance := rfl

/-- Settles O45: the state after CLS is the old one with the empty grid, past the instruction. -/
theorem clsClearsDisplay : Obligations.ClsClearsDisplay := by
  refine ⟨by decide, fun s => ⟨_, exec_cls, ?_, State.advance_pc _, ?_⟩⟩
  · intro y x
    simp
  · exact State.onlyChanges_setDisp_advance _

/-! ### The updates that leave DISP as it is -/

namespace State

@[simp] theorem writeResultFlag_disp (x : RegIdx) (b : Byte) (c : Bool) :
    (s.writeResultFlag x b c).disp = s.disp := by
  obtain ⟨v, hv⟩ := s.writeResultFlag_frame x b c
  rw [hv]

@[simp] theorem loadRegs_disp (j : Nat) (bs : List Byte) : (s.loadRegs j bs).disp = s.disp := by
  obtain ⟨v, hv⟩ := loadRegs_frame bs s j
  rw [hv]

@[simp] theorem pokes_disp (base : Nat) (bs : List Byte) : (s.pokes base bs).disp = s.disp := rfl

@[simp] theorem stepIndex_disp (x : RegIdx) : (s.stepIndex x).disp = s.disp := by
  unfold stepIndex
  split_ifs
  · exact setI_disp ..
  · rfl

end State

@[simp] theorem poll_disp : (poll s).disp = s.disp := by
  cases h : s.newKey with
  | none => simp [poll_none h]
  | some k => simp [poll_some h]

@[simp] theorem tick_disp : (tick s).disp = s.disp := rfl

@[simp] theorem setKey_disp (k : Nat) (pressed : Bool) : (setKey k pressed s).disp = s.disp := by
  unfold setKey
  split_ifs <;> rfl

/-! ### The instructions that leave DISP as it is -/

/-- Whatever state the result answers has the DISP of `s`. -/
def LeavesDisp (s : State) (r : Result) : Prop := ∀ t, r = .next t → t.disp = s.disp

@[simp] theorem leavesDisp_next : LeavesDisp s (.next t) ↔ t.disp = s.disp :=
  ⟨fun h => h t rfl, by rintro h _ ⟨⟩; exact h⟩

theorem leavesDisp_advance (h : t.disp = s.disp) : LeavesDisp s (.next t.advance) :=
  leavesDisp_next.mpr (t.advance_disp.trans h)

theorem leavesDisp_raiseIn {i : Instr} {k : FaultKind} {a : Option Nat} : LeavesDisp s (raiseIn i k a s) :=
  leavesDisp_next.mpr (State.raise_disp ..)

theorem leavesDisp_writeVx {x : RegIdx} {b : Byte} : LeavesDisp s (writeVx x b s) :=
  leavesDisp_advance (State.setReg_disp ..)

theorem leavesDisp_writeVxVf {x : RegIdx} {b : Byte} {c : Bool} : LeavesDisp s (writeVxVf x b c s) :=
  leavesDisp_advance (State.writeResultFlag_disp ..)

theorem leavesDisp_skipOnKey {i : Instr} {x : RegIdx} {down : Bool} : LeavesDisp s (skipOnKey i x down s) := by
  rw [skipOnKey_eq]
  split_ifs <;> simp

theorem leavesDisp_execSys (nnn : Addr12) : LeavesDisp s (execSys nnn s) := by
  unfold execSys
  split
  · simp
  · exact leavesDisp_raiseIn

theorem leavesDisp_execRet : LeavesDisp s (execRet s) := by
  unfold execRet
  split_ifs
  · simp
  · exact leavesDisp_raiseIn

theorem leavesDisp_execCall (nnn : Addr12) : LeavesDisp s (execCall nnn s) := by
  unfold execCall
  split_ifs
  · simp
  · exact leavesDisp_raiseIn

/-- Storing bytes from `base` up, when it succeeds, leaves DISP as it is. -/
theorem State.writeBytes_disp {base : Nat} {bs : List Byte} (h : s.writeBytes base bs = .ok t) :
    t.disp = s.disp := by
  rw [writeBytes_eq] at h
  split_ifs at h
  cases h
  exact pokes_disp ..

theorem leavesDisp_execLdBVx (x : RegIdx) : LeavesDisp s (execLdBVx x s) := by
  unfold execLdBVx
  split
  · exact leavesDisp_raiseIn
  next hw => simp [State.writeBytes_disp hw]

theorem leavesDisp_execLdMemIVx (x : RegIdx) : LeavesDisp s (execLdMemIVx x s) := by
  unfold execLdMemIVx
  split
  · exact leavesDisp_raiseIn
  next hw => simp [State.writeBytes_disp hw]

theorem leavesDisp_execLdVxMemI (x : RegIdx) : LeavesDisp s (execLdVxMemI x s) := by
  unfold execLdVxMemI
  split
  · exact leavesDisp_raiseIn
  · simp

/-- R194 among the instructions: each one but CLS and DRW leaves DISP as it is. -/
theorem leavesDisp_exec {i : Instr} (hcls : i ≠ .cls) (hdrw : ∀ x y n, i ≠ .drw x y n) :
    LeavesDisp s (exec i s) := by
  cases i with
  | cls => exact absurd rfl hcls
  | drw x y n => exact absurd rfl (hdrw x y n)
  | sys => exact leavesDisp_execSys _
  | ret => exact leavesDisp_execRet
  | call => exact leavesDisp_execCall _
  | ldVxKk | addVxKk | ldVxVy | orVxVy | andVxVy | xorVxVy | ldVxDt => exact leavesDisp_writeVx
  | addVxVy | sub | subn | shr | shl => exact leavesDisp_writeVxVf
  | rnd x kk => exact leavesDisp_writeVx (s := s.drawn)
  | skp | sknp => exact leavesDisp_skipOnKey
  | ldBVx => exact leavesDisp_execLdBVx _
  | ldMemIVx => exact leavesDisp_execLdMemIVx _
  | ldVxMemI => exact leavesDisp_execLdVxMemI _
  | jp | jpV0Nnn => exact leavesDisp_next.mpr (State.setPc_disp ..)
  | seVxKk | sneVxKk | seVxVy | sneVxVy => exact leavesDisp_next.mpr (State.skipIf_disp ..)
  | ldINnn | addIVx | ldFVx => exact leavesDisp_advance (State.setI_disp ..)
  | ldDtVx => exact leavesDisp_advance (State.setDt_disp ..)
  | ldStVx => exact leavesDisp_advance (State.setSt_disp ..)
  | ldVxK => exact leavesDisp_next.mpr (State.enterWait_disp ..)

/-! ### The transactions that change DISP (R194) -/

/-- A cycle that changes DISP fetched and ran CLS or DRW. -/
theorem cycle_changes_disp (h : cycle s = .next t) (hd : t.disp ≠ s.disp) :
    ∃ op i, s.fetch = .ok op ∧ decode op = .ok i ∧ (i = .cls ∨ ∃ x y n, i = .drw x y n) := by
  cases hf : s.fetch with
  | error a =>
    cases (cycle_fetch_error hf).symm.trans h
    exact absurd (State.raise_disp ..) hd
  | ok op =>
    cases hi : decode op with
    | error e =>
      cases (cycle_decode_error hf hi).symm.trans h
      exact absurd (State.raise_disp ..) hd
    | ok i =>
      refine ⟨op, i, rfl, hi, ?_⟩
      by_contra hno
      obtain ⟨hcls, hdrw⟩ := not_or.mp hno
      have hexec : LeavesDisp s (exec i s) := leavesDisp_exec hcls fun x y n e => hdrw ⟨x, y, n, e⟩
      exact hd (hexec t ((cycle_exec hf hi).symm.trans h))

/-- A step that changes DISP is a cycle of a running engine: a poll and a step that does nothing leave it. -/
theorem step_changes_disp (h : step s = .next t) (hd : t.disp ≠ s.disp) : s.run = .normal ∧ cycle s = .next t := by
  cases hrun : s.run with
  | normal => exact ⟨rfl, (step_normal hrun).symm.trans h⟩
  | idle =>
    cases (step_idle hrun).symm.trans h
    exact absurd rfl hd
  | halted =>
    cases (step_halted hrun).symm.trans h
    exact absurd rfl hd
  | waitingForKey =>
    cases (step_waiting hrun).symm.trans h
    exact absurd poll_disp hd

/-- The state after a STEP transaction is the one the step leads to. -/
theorem step_of_transact_step {r : Response} (h : transact .step s = .next (t, r)) : step s = .next t := by
  cases hs : step s with
  | next u =>
    cases (transact_step hs).symm.trans h
    rfl
  | fault e => simp [transact, hs] at h
  | refused e => simp [transact, hs] at h

/-- Settles O27: of the six transactions only LOAD and STEP can change DISP; a LOAD that is refused does not, and a
STEP does so only through CLS or DRW. -/
theorem onlyClsDrwLoadChangeDisplay : Obligations.OnlyClsDrwLoadChangeDisplay := by
  intro tr s t r h hd
  cases tr with
  | load bytes =>
    by_cases hlen : bytes.length ≤ Config.maxProgram
    · exact .inl ⟨bytes, rfl, hlen⟩
    · rw [transact_load, load_too_large (Nat.not_le.mp hlen)] at h
      cases h
      exact absurd (State.setRun_disp ..) hd
  | step =>
    obtain ⟨hrun, hcycle⟩ := step_changes_disp (step_of_transact_step h) hd
    exact .inr ⟨rfl, hrun, cycle_changes_disp hcycle hd⟩
  | tick =>
    cases transact_tick.symm.trans h
    exact absurd tick_disp hd
  | setKey k pressed =>
    cases (transact_setKey k pressed).symm.trans h
    exact absurd (setKey_disp k pressed) hd
  | snapshot =>
    cases transact_snapshot.symm.trans h
    exact absurd rfl hd
  | soundActive =>
    cases transact_soundActive.symm.trans h
    exact absurd rfl hd

end Sys2Proof.Machine
end

section
/-! PROOFS. The encoding: the decoder and the encoder invert each other, decoding follows the opcode map of R97, and
which words are unknown (R91 to R99). -/
namespace Sys2Proof

variable {op : Word}

/-! ### A word from what its fields hold -/

theorem wordAddr_of_fieldH {h : BitVec 4} (hh : (fieldH op).toNat = h.toNat) : wordAddr h (fieldNnn op) = op := by
  rw [← BitVec.eq_of_toNat_eq hh]
  exact wordAddr_fields op

theorem wordXkk_of_fieldH {h : BitVec 4} (hh : (fieldH op).toNat = h.toNat) :
    wordXkk h (fieldX op) (fieldKk op) = op := by
  rw [← BitVec.eq_of_toNat_eq hh]
  exact wordXkk_fields op

theorem wordXkk_of_fieldH_fieldKk {h : BitVec 4} {kk : Byte} (hh : (fieldH op).toNat = h.toNat)
    (hk : (fieldKk op).toNat = kk.toNat) : wordXkk h (fieldX op) kk = op := by
  rw [← BitVec.eq_of_toNat_eq hk]
  exact wordXkk_of_fieldH hh

theorem wordXyn_of_fieldH {h : BitVec 4} (hh : (fieldH op).toNat = h.toNat) :
    wordXyn h (fieldX op) (fieldY op) (fieldN op) = op := by
  rw [← BitVec.eq_of_toNat_eq hh]
  exact wordXyn_fields op

theorem wordXyn_of_fieldH_fieldN {h : BitVec 4} {n : Nibble} (hh : (fieldH op).toNat = h.toNat)
    (hn : (fieldN op).toNat = n.toNat) : wordXyn h (fieldX op) (fieldY op) n = op := by
  rw [← BitVec.eq_of_toNat_eq hn]
  exact wordXyn_of_fieldH hh

/-! ### Decoding an encoded instruction -/

/-- The precedence of R99 shuts out exactly the two words of CLS and RET. -/
theorem decode_wordAddr_zero {nnn : Addr12} (hcls : nnn ≠ 0x0E0#12) (hret : nnn ≠ 0x0EE#12) :
    decode (wordAddr 0x0#4 nnn) = .ok (.sys nnn) := by
  have hne : ∀ c : Addr12, nnn ≠ c → wordAddr 0x0#4 nnn ≠ wordAddr 0x0#4 c := fun c hc he =>
    hc (by simpa using congrArg fieldNnn he)
  have h1 : wordAddr 0x0#4 nnn ≠ 0x00E0#16 := hne 0x0E0#12 hcls
  have h2 : wordAddr 0x0#4 nnn ≠ 0x00EE#16 := hne 0x0EE#12 hret
  simp [decode, decodeGroup0, h1, h2]

/-- Settles O1: the fields of an encoded word are the operands put into it, so each row's dispatch finds its own
instruction. -/
theorem decodeInvertsEncode : Obligations.DecodeInvertsEncode := by
  intro i hwf
  cases i with
  | sys nnn =>
    obtain ⟨hcls, hret⟩ : nnn ≠ 0x0E0#12 ∧ nnn ≠ 0x0EE#12 := by simpa [Instr.wellFormed] using hwf
    exact decode_wordAddr_zero hcls hret
  | cls | ret => rfl
  | jp | call | ldINnn | jpV0Nnn => simp [encode, decode]
  | seVxKk | sneVxKk | ldVxKk | addVxKk | rnd => simp [encode, decode]
  | seVxVy | sneVxVy | drw => simp [encode, decode]
  | ldVxVy | orVxVy | andVxVy | xorVxVy | addVxVy | sub | shr | subn | shl => simp [encode, decode, decodeGroup8]
  | skp | sknp => simp [encode, decode, decodeGroupE]
  | ldVxDt | ldVxK | ldDtVx | ldStVx | addIVx | ldFVx | ldBVx | ldMemIVx | ldVxMemI =>
    simp [encode, decode, decodeGroupF]

/-! ### Encoding a decoded word -/

/-- The instruction has this word, and some word stands for it (R97, R99). -/
def EncodesTo (i : Instr) (op : Word) : Prop := encode i = op ∧ i.wellFormed = true

theorem encodesTo_decodeGroup0 (hh : (fieldH op).toNat = 0) : EncodesTo (decodeGroup0 op) op := by
  have hop : wordAddr 0x0#4 (fieldNnn op) = op := wordAddr_of_fieldH hh
  unfold decodeGroup0
  split_ifs with hcls hret
  · exact ⟨hcls.symm, rfl⟩
  · exact ⟨hret.symm, rfl⟩
  · refine ⟨hop, ?_⟩
    have h1 : fieldNnn op ≠ 0x0E0#12 := fun h => hcls (by rw [← hop, h]; rfl)
    have h2 : fieldNnn op ≠ 0x0EE#12 := fun h => hret (by rw [← hop, h]; rfl)
    simp [Instr.wellFormed, h1, h2]

theorem encodesTo_of_decodeGroup8 {i : Instr} (hh : (fieldH op).toNat = 8) (h : decodeGroup8 op = .ok i) :
    EncodesTo i op := by
  unfold decodeGroup8 at h
  split at h <;> cases h
  all_goals exact ⟨wordXyn_of_fieldH_fieldN hh ‹_›, rfl⟩

theorem encodesTo_of_decodeGroupE {i : Instr} (hh : (fieldH op).toNat = 14) (h : decodeGroupE op = .ok i) :
    EncodesTo i op := by
  unfold decodeGroupE at h
  split at h <;> cases h
  all_goals exact ⟨wordXkk_of_fieldH_fieldKk hh ‹_›, rfl⟩

theorem encodesTo_of_decodeGroupF {i : Instr} (hh : (fieldH op).toNat = 15) (h : decodeGroupF op = .ok i) :
    EncodesTo i op := by
  unfold decodeGroupF at h
  split at h <;> cases h
  all_goals exact ⟨wordXkk_of_fieldH_fieldKk hh ‹_›, rfl⟩

theorem encodesTo_of_decode {i : Instr} (h : decode op = .ok i) : EncodesTo i op := by
  unfold decode at h
  split at h
  case h_1 hh => cases h; exact encodesTo_decodeGroup0 hh
  case h_6 hh | h_10 hh =>
    split_ifs at h with hn
    cases h
    exact ⟨wordXyn_of_fieldH_fieldN hh (congrArg BitVec.toNat hn), rfl⟩
  case h_9 hh => exact encodesTo_of_decodeGroup8 hh h
  case h_15 hh => exact encodesTo_of_decodeGroupE hh h
  case h_16 hh => exact encodesTo_of_decodeGroupF hh h
  case h_2 hh | h_3 hh | h_11 hh | h_12 hh => cases h; exact ⟨wordAddr_of_fieldH hh, rfl⟩
  case h_4 hh | h_5 hh | h_7 hh | h_8 hh | h_13 hh => cases h; exact ⟨wordXkk_of_fieldH hh, rfl⟩
  case h_14 hh => cases h; exact ⟨wordXyn_of_fieldH hh, rfl⟩
  case h_17 => cases h

/-- Settles O2: in each row of R97 the word is put together again from the fields the decoder read. -/
theorem encodeInvertsDecode : Obligations.EncodeInvertsDecode := fun _ _ => encodesTo_of_decode

/-! ### The opcode map -/

open Laws in
/-- The word of an instruction matches the instruction's own row of R97. -/
theorem covers_encode (i : Instr) : (rowOf i).covers (encode i) = true := by
  cases i with
  | sys nnn => exact EncodingRow.sys nnn
  | cls => exact EncodingRow.cls
  | ret => exact EncodingRow.ret
  | jp nnn => exact EncodingRow.jp nnn
  | call nnn => exact EncodingRow.call nnn
  | seVxKk x kk => exact EncodingRow.seVxKk x kk
  | sneVxKk x kk => exact EncodingRow.sneVxKk x kk
  | seVxVy x y => exact EncodingRow.seVxVy x y
  | ldVxKk x kk => exact EncodingRow.ldVxKk x kk
  | addVxKk x kk => exact EncodingRow.addVxKk x kk
  | ldVxVy x y => exact EncodingRow.ldVxVy x y
  | orVxVy x y => exact EncodingRow.orVxVy x y
  | andVxVy x y => exact EncodingRow.andVxVy x y
  | xorVxVy x y => exact EncodingRow.xorVxVy x y
  | addVxVy x y => exact EncodingRow.addVxVy x y
  | sub x y => exact EncodingRow.sub x y
  | shr x y => exact EncodingRow.shr x y
  | subn x y => exact EncodingRow.subn x y
  | shl x y => exact EncodingRow.shl x y
  | sneVxVy x y => exact EncodingRow.sneVxVy x y
  | ldINnn nnn => exact EncodingRow.ldINnn nnn
  | jpV0Nnn nnn => exact EncodingRow.jpV0Nnn nnn
  | rnd x kk => exact EncodingRow.rnd x kk
  | drw x y n => exact EncodingRow.drw x y n
  | skp x => exact EncodingRow.skp x
  | sknp x => exact EncodingRow.sknp x
  | ldVxDt x => exact EncodingRow.ldVxDt x
  | ldVxK x => exact EncodingRow.ldVxK x
  | ldDtVx x => exact EncodingRow.ldDtVx x
  | ldStVx x => exact EncodingRow.ldStVx x
  | addIVx x => exact EncodingRow.addIVx x
  | ldFVx x => exact EncodingRow.ldFVx x
  | ldBVx x => exact EncodingRow.ldBVx x
  | ldMemIVx x => exact EncodingRow.ldMemIVx x
  | ldVxMemI x => exact EncodingRow.ldVxMemI x

theorem fieldH_of_covers_F000 {pattern : Word} (hc : OpcodeRow.covers ⟨pattern, 0xF000#16⟩ op = true) :
    fieldH op = fieldH pattern := by
  obtain rfl : wordAddr (fieldH op) 0#12 = pattern := by simpa [OpcodeRow.covers, and_F000] using hc
  simp

theorem fields_of_covers_F00F {pattern : Word} (hc : OpcodeRow.covers ⟨pattern, 0xF00F#16⟩ op = true) :
    fieldH op = fieldH pattern ∧ fieldN op = fieldN pattern := by
  obtain rfl : wordXyn (fieldH op) 0 0 (fieldN op) = pattern := by simpa [OpcodeRow.covers, and_F00F] using hc
  simp

theorem fields_of_covers_F0FF {pattern : Word} (hc : OpcodeRow.covers ⟨pattern, 0xF0FF#16⟩ op = true) :
    fieldH op = fieldH pattern ∧ fieldKk op = fieldKk pattern := by
  obtain rfl : wordXkk (fieldH op) 0 (fieldKk op) = pattern := by simpa [OpcodeRow.covers, and_F0FF] using hc
  simp

theorem eq_of_covers_FFFF {pattern : Word} (hc : OpcodeRow.covers ⟨pattern, 0xFFFF#16⟩ op = true) :
    op = pattern := by
  have hmask : op &&& 0xFFFF#16 = op := BitVec.and_allOnes
  simpa [OpcodeRow.covers, hmask] using hc

/-- A word that a row of R97 admits decodes, and to that row unless the row is SYS (R91, R99). -/
def DecodesByRow (r : Instr) (op : Word) : Prop :=
  ∃ i, decode op = .ok i ∧ (rowOf r = rowOf i ∨ rowOf r = rowOf (.sys 0))

theorem DecodesByRow.of_decode {r i : Instr} (hi : decode op = .ok i) (hrow : rowOf r = rowOf i) :
    DecodesByRow r op := ⟨i, hi, .inl hrow⟩

theorem decodesByRow_of_covers (r : Instr) (hc : (rowOf r).covers op = true) : DecodesByRow r op := by
  cases r with
  | sys =>
    have hh := fieldH_of_covers_F000 hc
    exact ⟨decodeGroup0 op, by rw [decode, hh]; rfl, .inr rfl⟩
  | cls | ret =>
    obtain rfl := eq_of_covers_FFFF hc
    exact ⟨_, rfl, .inl rfl⟩
  | jp | call | seVxKk | sneVxKk | ldVxKk | addVxKk | ldINnn | jpV0Nnn | rnd | drw =>
    have hh := fieldH_of_covers_F000 hc
    apply DecodesByRow.of_decode
    · rw [decode, hh]
      rfl
    · rfl
  | seVxVy | sneVxVy =>
    obtain ⟨hh, hn⟩ := fields_of_covers_F00F hc
    apply DecodesByRow.of_decode
    · rw [decode, hh, hn]
      rfl
    · rfl
  | ldVxVy | orVxVy | andVxVy | xorVxVy | addVxVy | sub | shr | subn | shl =>
    obtain ⟨hh, hn⟩ := fields_of_covers_F00F hc
    apply DecodesByRow.of_decode
    · rw [decode, hh, decodeGroup8, hn]
      rfl
    · rfl
  | skp | sknp =>
    obtain ⟨hh, hk⟩ := fields_of_covers_F0FF hc
    apply DecodesByRow.of_decode
    · rw [decode, hh, decodeGroupE, hk]
      rfl
    · rfl
  | ldVxDt | ldVxK | ldDtVx | ldStVx | addIVx | ldFVx | ldBVx | ldMemIVx | ldVxMemI =>
    obtain ⟨hh, hk⟩ := fields_of_covers_F0FF hc
    apply DecodesByRow.of_decode
    · rw [decode, hh, decodeGroupF, hk]
      rfl
    · rfl

/-- Settles O3: a word that decodes is the word of its instruction, which that instruction's row admits; and whatever
row admits a word, the word decodes to that row, SYS excepted. -/
theorem decodeFollowsOpcodeMap : Obligations.DecodeFollowsOpcodeMap := by
  intro op
  constructor
  · intro i hi
    obtain ⟨rfl, -⟩ := encodesTo_of_decode hi
    refine ⟨covers_encode i, fun r _ hc => ?_⟩
    obtain ⟨j, hj, hrow⟩ := decodesByRow_of_covers r hc
    obtain rfl : j = i := by simpa [hj] using hi
    exact hrow
  · intro e he r _
    by_contra hc
    obtain ⟨i, hi, -⟩ := decodesByRow_of_covers r (by simpa using hc)
    simp [hi] at he

/-! ### Unknown encodings (R98) -/

theorem decodeGroup8_eq_error_iff : decodeGroup8 op = .error (.unknownOpcode op) ↔
    (fieldN op).toNat ∈ [0x8, 0x9, 0xA, 0xB, 0xC, 0xD, 0xF] := by
  unfold decodeGroup8
  split
  case h_10 =>
    have hlt := (fieldN op).isLt
    simp only [imp_false] at *
    simp only [List.mem_cons, List.not_mem_nil, or_false, true_iff]
    omega
  all_goals simp_all only [reduceCtorEq, false_iff]; decide

theorem decodeGroupE_eq_error_iff : decodeGroupE op = .error (.unknownOpcode op) ↔
    (fieldKk op).toNat ∉ [0x9E, 0xA1] := by
  unfold decodeGroupE
  split <;> simp_all

theorem decodeGroupF_eq_error_iff : decodeGroupF op = .error (.unknownOpcode op) ↔
    (fieldKk op).toNat ∉ [0x07, 0x0A, 0x15, 0x18, 0x1E, 0x29, 0x33, 0x55, 0x65] := by
  unfold decodeGroupF
  split <;> simp_all

theorem fieldN_eq_zero_iff : fieldN op = 0#4 ↔ (fieldN op).toNat = 0 := by
  rw [← BitVec.toNat_inj]
  rfl

/-- Settles O4: the groups 5, 8, 9, E and F alone leave words over, each by its own dispatch on `n` or `kk`. -/
theorem unknownEncodingsAreListed : Obligations.UnknownEncodingsAreListed := by
  intro op
  rw [← toNat_fieldH, ← toNat_fieldN, ← toNat_fieldKk, ← decodeGroup8_eq_error_iff, ← decodeGroupE_eq_error_iff,
    ← decodeGroupF_eq_error_iff]
  unfold decode
  split
  case h_6 hh | h_10 hh =>
    by_cases hn : fieldN op = 0#4 <;> simp [hh, hn, ← fieldN_eq_zero_iff]
  case h_17 =>
    have hlt := (fieldH op).isLt
    simp only [imp_false] at *
    omega
  all_goals simp [*]

/-- Settles O5: the decoder evaluated on each word. -/
theorem vectorWordsDecode : Obligations.VectorWordsDecode := by
  unfold Obligations.VectorWordsDecode
  decide

end Sys2Proof
end

section
/-! PROOFS. What each instruction answers: the halt of R253 where the execute-phase check fails, and otherwise one
completed state. -/
namespace Sys2Proof.Machine

namespace State

variable {s : State}

/-! ### Replacing V[0..15] -/

/-- The state with other V[0..15]. -/
def setRegs (s : State) (v : Vector Byte 16) : State := { s with v := v }

@[simp] theorem setRegs_i (v : Vector Byte 16) : (s.setRegs v).i = s.i := rfl
@[simp] theorem setRegs_pc (v : Vector Byte 16) : (s.setRegs v).pc = s.pc := rfl
@[simp] theorem setRegs_sp (v : Vector Byte 16) : (s.setRegs v).sp = s.sp := rfl
@[simp] theorem setRegs_stack (v : Vector Byte 16) : (s.setRegs v).stack = s.stack := rfl
@[simp] theorem setRegs_mem (v : Vector Byte 16) : (s.setRegs v).mem = s.mem := rfl
@[simp] theorem setRegs_dt (v : Vector Byte 16) : (s.setRegs v).dt = s.dt := rfl
@[simp] theorem setRegs_st (v : Vector Byte 16) : (s.setRegs v).st = s.st := rfl
@[simp] theorem setRegs_disp (v : Vector Byte 16) : (s.setRegs v).disp = s.disp := rfl
@[simp] theorem setRegs_key (v : Vector Byte 16) : (s.setRegs v).key = s.key := rfl
@[simp] theorem setRegs_keyPrev (v : Vector Byte 16) : (s.setRegs v).keyPrev = s.keyPrev := rfl
@[simp] theorem setRegs_waitX (v : Vector Byte 16) : (s.setRegs v).waitX = s.waitX := rfl
@[simp] theorem setRegs_run (v : Vector Byte 16) : (s.setRegs v).run = s.run := rfl
@[simp] theorem setRegs_faultRec (v : Vector Byte 16) : (s.setRegs v).faultRec = s.faultRec := rfl
@[simp] theorem setRegs_rndDraws (v : Vector Byte 16) : (s.setRegs v).rndDraws = s.rndDraws := rfl
@[simp] theorem setRegs_params (v : Vector Byte 16) : (s.setRegs v).params = s.params := rfl

/-- V[0..15] after a result and a flag are written. -/
def flagRegs (s : State) (x : RegIdx) (b : Byte) (c : Bool) : Vector Byte 16 := (s.writeResultFlag x b c).v

@[simp] theorem writeResultFlag_eq (x : RegIdx) (b : Byte) (c : Bool) :
    s.writeResultFlag x b c = s.setRegs (s.flagRegs x b c) := by
  obtain ⟨v, hv⟩ := s.writeResultFlag_frame x b c
  rw [flagRegs, hv]
  rfl

/-- V[0..15] after bytes are loaded from V[j] up. -/
def loadedRegs (s : State) (j : Nat) (bs : List Byte) : Vector Byte 16 := (s.loadRegs j bs).v

@[simp] theorem loadRegs_eq (j : Nat) (bs : List Byte) : s.loadRegs j bs = s.setRegs (s.loadedRegs j bs) := by
  obtain ⟨v, hv⟩ := loadRegs_frame bs s j
  rw [loadedRegs, hv]
  rfl

/-! ### Bytes stored from `base` up -/

@[simp] theorem pokes_v (base : Nat) (bs : List Byte) : (s.pokes base bs).v = s.v := rfl
@[simp] theorem pokes_i (base : Nat) (bs : List Byte) : (s.pokes base bs).i = s.i := rfl
@[simp] theorem pokes_pc (base : Nat) (bs : List Byte) : (s.pokes base bs).pc = s.pc := rfl
@[simp] theorem pokes_sp (base : Nat) (bs : List Byte) : (s.pokes base bs).sp = s.sp := rfl
@[simp] theorem pokes_stack (base : Nat) (bs : List Byte) : (s.pokes base bs).stack = s.stack := rfl
@[simp] theorem pokes_dt (base : Nat) (bs : List Byte) : (s.pokes base bs).dt = s.dt := rfl
@[simp] theorem pokes_st (base : Nat) (bs : List Byte) : (s.pokes base bs).st = s.st := rfl
@[simp] theorem pokes_key (base : Nat) (bs : List Byte) : (s.pokes base bs).key = s.key := rfl
@[simp] theorem pokes_keyPrev (base : Nat) (bs : List Byte) : (s.pokes base bs).keyPrev = s.keyPrev := rfl
@[simp] theorem pokes_waitX (base : Nat) (bs : List Byte) : (s.pokes base bs).waitX = s.waitX := rfl
@[simp] theorem pokes_run (base : Nat) (bs : List Byte) : (s.pokes base bs).run = s.run := rfl
@[simp] theorem pokes_faultRec (base : Nat) (bs : List Byte) : (s.pokes base bs).faultRec = s.faultRec := rfl
@[simp] theorem pokes_rndDraws (base : Nat) (bs : List Byte) : (s.pokes base bs).rndDraws = s.rndDraws := rfl
@[simp] theorem pokes_params (base : Nat) (bs : List Byte) : (s.pokes base bs).params = s.params := rfl
@[simp] theorem pokes_reg (base : Nat) (bs : List Byte) (x : RegIdx) : (s.pokes base bs).reg x = s.reg x := rfl
@[simp] theorem pokes_bg (base : Nat) (bs : List Byte) : (s.pokes base bs).bg = s.bg := rfl

/-! ### I after a register transfer -/

/-- I after LD [I],Vx and LD Vx,[I] (R12, R238, R240). -/
def steppedIndex (s : State) (x : RegIdx) : Word :=
  if s.params.memIncrementsI then s.i + BitVec.ofNat 16 (x.val + 1) else s.i

@[simp] theorem stepIndex_eq (x : RegIdx) : s.stepIndex x = s.setI (s.steppedIndex x) := by
  unfold stepIndex steppedIndex
  split_ifs <;> rfl

end State

/-! ### The completed state of each instruction -/

/-- The grid and the collision bit after the rows of a sprite are drawn at V[x], V[y] (R192). -/
def blitAtRegs (s : State) (x y : RegIdx) (rows : List Byte) : Blit :=
  blitRows (s.disp, false) ((s.reg y).toNat % 32) ((s.reg x).toNat % 64) rows

/-- DRW once the rows of its sprite are read (R192). -/
@[simp] def drawRows (s : State) (x y : RegIdx) (rows : List Byte) : State :=
  ((s.setDisp (blitAtRegs s x y rows).1).setReg 15 (flagByte (blitAtRegs s x y rows).2)).advance

/-- The state an instruction that raises no fault leads to (R120 to R240). RET on an empty and CALL on a full stack
raise one, so what stands for them here does not matter. -/
def completed (i : Instr) (s : State) : State :=
  match i with
  | .sys _ => s.advance
  | .cls => (s.setDisp (.replicate 32 0)).advance
  | .ret => if h : 0 < s.sp.val then s.pop.setPc (s.top h) else s
  | .jp nnn => s.setPc (zext16 nnn)
  | .call nnn => if h : s.sp.val < 16 then (s.push (s.pc + 2) h).setPc (zext16 nnn) else s
  | .seVxKk x kk => s.skipIf (s.reg x == kk)
  | .sneVxKk x kk => s.skipIf (s.reg x != kk)
  | .seVxVy x y => s.skipIf (s.reg x == s.reg y)
  | .sneVxVy x y => s.skipIf (s.reg x != s.reg y)
  | .skp x => s.skipIf (s.keyDown (s.reg x).toNat == true)
  | .sknp x => s.skipIf (s.keyDown (s.reg x).toNat == false)
  | .ldVxKk x kk => (s.setReg x kk).advance
  | .addVxKk x kk => (s.setReg x (addMod (s.reg x) kk)).advance
  | .ldVxVy x y => (s.setReg x (s.reg y)).advance
  | .orVxVy x y => (s.setReg x (s.reg x ||| s.reg y)).advance
  | .andVxVy x y => (s.setReg x (s.reg x &&& s.reg y)).advance
  | .xorVxVy x y => (s.setReg x (s.reg x ^^^ s.reg y)).advance
  | .addVxVy x y => (s.writeResultFlag x (addMod (s.reg x) (s.reg y)) (carry (s.reg x) (s.reg y))).advance
  | .sub x y => (s.writeResultFlag x (subMod (s.reg x) (s.reg y)) (noBorrow (s.reg x) (s.reg y))).advance
  | .subn x y => (s.writeResultFlag x (subMod (s.reg y) (s.reg x)) (noBorrow (s.reg y) (s.reg x))).advance
  | .shr x y => (s.writeResultFlag x (shiftRight1 (s.shiftOperand x y)) (outRight (s.shiftOperand x y))).advance
  | .shl x y => (s.writeResultFlag x (shiftLeft1 (s.shiftOperand x y)) (outLeft (s.shiftOperand x y))).advance
  | .rnd x kk => (s.drawn.setReg x (s.nextRnd &&& kk)).advance
  | .jpV0Nnn nnn => s.setPc (s.offsetTarget nnn)
  | .drw x y n => drawRows s x y (s.peeks s.indexAddr n.toNat)
  | .ldVxDt x => (s.setReg x s.dt).advance
  | .ldVxK x => s.latchKeys.enterWait x
  | .ldDtVx x => (s.setDt (s.reg x)).advance
  | .ldStVx x => (s.setSt (s.reg x)).advance
  | .ldINnn nnn => (s.setI (zext16 nnn)).advance
  | .addIVx x => (s.setI (BitVec.ofNat 16 (s.i.toNat + (s.reg x).toNat))).advance
  | .ldFVx x => (s.setI (s.glyphAddr x)).advance
  | .ldBVx x => (s.pokes s.indexAddr (bcdDigits (s.reg x))).advance
  | .ldMemIVx x => ((s.pokes s.indexAddr (s.regsUpTo x)).stepIndex x).advance
  | .ldVxMemI x => ((s.loadRegs 0 (s.peeks s.indexAddr (x.val + 1))).stepIndex x).advance

/-- The state an instruction leads to: the halt of R253 where its check fails, else the completed state. -/
def outcome (i : Instr) (s : State) : State :=
  match instrFault i s with
  | some f => s.raise f.1 (some (encode i)) f.2
  | none => completed i s

variable {s : State} {i : Instr}

theorem outcome_of_fault {k : FaultKind} {a : Option Nat} (h : instrFault i s = some (k, a)) :
    outcome i s = s.raise k (some (encode i)) a := by rw [outcome, h]

theorem outcome_of_no_fault (h : instrFault i s = none) : outcome i s = completed i s := by rw [outcome, h]

/-! ### The checks of the execute phase (R250) -/

theorem instrFault_sys_nop {nnn : Addr12} (h : s.params.sysMode = .nop) : instrFault (.sys nnn) s = none :=
  if_neg (by simp [h])

theorem instrFault_sys_fault {nnn : Addr12} (h : s.params.sysMode = .fault) :
    instrFault (.sys nnn) s = some (.unknownOpcode, none) := if_pos h

theorem instrFault_ret_empty (h : s.sp.val = 0) : instrFault .ret s = some (.stackUnderflow, none) := if_pos h

theorem instrFault_ret_of_pos (h : 0 < s.sp.val) : instrFault .ret s = none := if_neg h.ne'

theorem instrFault_call_full {nnn : Addr12} (h : s.sp.val = 16) :
    instrFault (.call nnn) s = some (.stackOverflow, none) := if_pos h

theorem instrFault_call_of_room {nnn : Addr12} (h : s.sp.val < 16) : instrFault (.call nnn) s = none := if_neg h.ne

/-- The instruction checks `n` addresses from `base` up and has no other check (R63). -/
def ChecksRange (i : Instr) (s : State) (base n : Nat) : Prop :=
  instrFault i s = (rangeFault base n).map fun a => (.addressOutOfRange, some a)

theorem ChecksRange.fault {base n : Nat} (hi : ChecksRange i s base n) (h : 0 < n ∧ base + n - 1 > 0xFFF) :
    instrFault i s = some (.addressOutOfRange, some (max base 0x1000)) := by
  rw [hi, rangeFault, if_pos h]
  rfl

theorem ChecksRange.no_fault {base n : Nat} (hi : ChecksRange i s base n) (h : ¬(0 < n ∧ base + n - 1 > 0xFFF)) :
    instrFault i s = none := by
  rw [hi, rangeFault, if_neg h]
  rfl

theorem checksRange_drw (x y : RegIdx) (n : Nibble) : ChecksRange (.drw x y n) s s.indexAddr n.toNat := rfl

theorem checksRange_ldBVx (x : RegIdx) : ChecksRange (.ldBVx x) s s.indexAddr 3 := rfl

theorem checksRange_ldMemIVx (x : RegIdx) : ChecksRange (.ldMemIVx x) s s.indexAddr (x.val + 1) := rfl

theorem checksRange_ldVxMemI (x : RegIdx) : ChecksRange (.ldVxMemI x) s s.indexAddr (x.val + 1) := rfl

/-! ### `exec` arm by arm -/

theorem execSys_eq (nnn : Addr12) : execSys nnn s = .next (outcome (.sys nnn) s) := by
  unfold execSys
  split
  next h => rw [outcome_of_no_fault (instrFault_sys_nop h)]; rfl
  next h => rw [outcome_of_fault (instrFault_sys_fault h)]; rfl

theorem execRet_eq : execRet s = .next (outcome .ret s) := by
  unfold execRet
  split_ifs with h
  · rw [outcome_of_no_fault (instrFault_ret_of_pos h), completed, dif_pos h]
  · rw [outcome_of_fault (instrFault_ret_empty (Nat.eq_zero_of_not_pos h))]
    rfl

theorem execCall_eq (nnn : Addr12) : execCall nnn s = .next (outcome (.call nnn) s) := by
  unfold execCall
  split_ifs with h
  · rw [outcome_of_no_fault (instrFault_call_of_room h), completed, dif_pos h]
  · rw [outcome_of_fault (instrFault_call_full (by omega))]
    rfl

theorem skipOnKey_eq_outcome {x : RegIdx} {down : Bool}
    (hf : instrFault i s = if (s.reg x).toNat > 0xF then some (.keyIndexOutOfRange, none) else none)
    (hc : completed i s = s.skipIf (s.keyDown (s.reg x).toNat == down)) :
    skipOnKey i x down s = .next (outcome i s) := by
  rw [skipOnKey_eq]
  split_ifs with h
  · rw [outcome_of_fault (hf.trans (if_pos h))]
  · rw [outcome_of_no_fault (hf.trans (if_neg h)), hc]

theorem execDrw_eq (x y : RegIdx) (n : Nibble) : execDrw x y n s = .next (outcome (.drw x y n) s) := by
  unfold execDrw
  rw [State.readBytes_eq]
  split_ifs with h
  · exact congrArg _ (outcome_of_fault ((checksRange_drw x y n).fault h)).symm
  · exact congrArg _ (outcome_of_no_fault ((checksRange_drw x y n).no_fault h)).symm

theorem execLdBVx_eq (x : RegIdx) : execLdBVx x s = .next (outcome (.ldBVx x) s) := by
  unfold execLdBVx
  rw [State.writeBytes_eq]
  split_ifs with h
  · exact congrArg _ (outcome_of_fault ((checksRange_ldBVx x).fault h)).symm
  · exact congrArg _ (outcome_of_no_fault ((checksRange_ldBVx x).no_fault h)).symm

theorem execLdMemIVx_eq (x : RegIdx) : execLdMemIVx x s = .next (outcome (.ldMemIVx x) s) := by
  unfold execLdMemIVx
  rw [State.writeBytes_eq, State.length_regsUpTo]
  split_ifs with h
  · exact congrArg _ (outcome_of_fault ((checksRange_ldMemIVx x).fault h)).symm
  · exact congrArg _ (outcome_of_no_fault ((checksRange_ldMemIVx x).no_fault h)).symm

theorem execLdVxMemI_eq (x : RegIdx) : execLdVxMemI x s = .next (outcome (.ldVxMemI x) s) := by
  unfold execLdVxMemI
  rw [State.readBytes_eq]
  split_ifs with h
  · exact congrArg _ (outcome_of_fault ((checksRange_ldVxMemI x).fault h)).symm
  · exact congrArg _ (outcome_of_no_fault ((checksRange_ldVxMemI x).no_fault h)).symm

/-- Every instruction answers its outcome: `exec`, said once for all later proofs. -/
theorem exec_eq (i : Instr) (s : State) : exec i s = .next (outcome i s) := by
  cases i with
  | sys nnn => exact execSys_eq nnn
  | ret => exact execRet_eq
  | call nnn => exact execCall_eq nnn
  | skp | sknp => exact skipOnKey_eq_outcome rfl rfl
  | drw x y n => exact execDrw_eq x y n
  | ldBVx x => exact execLdBVx_eq x
  | ldMemIVx x => exact execLdMemIVx_eq x
  | ldVxMemI x => exact execLdVxMemI_eq x
  | _ => rfl

theorem exec_of_fault {k : FaultKind} {a : Option Nat} (h : instrFault i s = some (k, a)) :
    exec i s = .next (s.raise k (some (encode i)) a) := by rw [exec_eq, outcome_of_fault h]

theorem exec_of_no_fault (h : instrFault i s = none) : exec i s = .next (completed i s) := by
  rw [exec_eq, outcome_of_no_fault h]

/-- What an instruction can do: raise the fault of its check, or complete. -/
theorem exec_cases {t : State} (h : exec i s = .next t) :
    (∃ k a, instrFault i s = some (k, a) ∧ t = s.raise k (some (encode i)) a) ∨
    (instrFault i s = none ∧ t = completed i s) := by
  cases hf : instrFault i s with
  | some f =>
    cases (exec_of_fault hf).symm.trans h
    exact .inl ⟨f.1, f.2, rfl, rfl⟩
  | none =>
    cases (exec_of_no_fault hf).symm.trans h
    exact .inr ⟨rfl, rfl⟩

/-! ### The fields a completed instruction leaves alone -/

section
variable (i s)

theorem completed_faultRec : (completed i s).faultRec = s.faultRec := by
  cases i with
  | ret | call => rw [completed]; split_ifs <;> rfl
  | _ => simp [completed]

theorem completed_key : (completed i s).key = s.key := by
  cases i with
  | ret | call => rw [completed]; split_ifs <;> rfl
  | _ => simp [completed]

theorem completed_params : (completed i s).params = s.params := by
  cases i with
  | ret | call => rw [completed]; split_ifs <;> rfl
  | _ => simp [completed]

end

/-! ### The fields one or two instructions write -/

/-- Only LD Vx,K changes RUN (R212). -/
theorem completed_run (h : ¬∃ x, i = .ldVxK x) : (completed i s).run = s.run := by
  cases i with
  | ldVxK x => exact absurd ⟨x, rfl⟩ h
  | ret | call => rw [completed]; split_ifs <;> rfl
  | _ => simp [completed]

theorem completed_latches (h : ¬∃ x, i = .ldVxK x) :
    (completed i s).keyPrev = s.keyPrev ∧ (completed i s).waitX = s.waitX := by
  cases i with
  | ldVxK x => exact absurd ⟨x, rfl⟩ h
  | ret | call => rw [completed]; split_ifs <;> exact ⟨rfl, rfl⟩
  | _ => simp [completed]

theorem completed_sp (h : ¬(i = .ret ∨ ∃ nnn, i = .call nnn)) : (completed i s).sp = s.sp := by
  cases i with
  | ret => exact absurd (.inl rfl) h
  | call nnn => exact absurd (.inr ⟨nnn, rfl⟩) h
  | _ => simp [completed]

theorem completed_stack (h : ¬∃ nnn, i = .call nnn) : (completed i s).stack = s.stack := by
  cases i with
  | call nnn => exact absurd ⟨nnn, rfl⟩ h
  | ret => rw [completed]; split_ifs <;> rfl
  | _ => simp [completed]

theorem completed_dt (h : ¬∃ x, i = .ldDtVx x) : (completed i s).dt = s.dt := by
  cases i with
  | ldDtVx x => exact absurd ⟨x, rfl⟩ h
  | ret | call => rw [completed]; split_ifs <;> rfl
  | _ => simp [completed]

theorem completed_st (h : ¬∃ x, i = .ldStVx x) : (completed i s).st = s.st := by
  cases i with
  | ldStVx x => exact absurd ⟨x, rfl⟩ h
  | ret | call => rw [completed]; split_ifs <;> rfl
  | _ => simp [completed]

theorem completed_rndDraws (h : ¬∃ x kk, i = .rnd x kk) : (completed i s).rndDraws = s.rndDraws := by
  cases i with
  | rnd x kk => exact absurd ⟨x, kk, rfl⟩ h
  | ret | call => rw [completed]; split_ifs <;> rfl
  | _ => simp [completed]

theorem completed_mem (h : ¬∃ x, i = .ldBVx x ∨ i = .ldMemIVx x) : (completed i s).mem = s.mem := by
  cases i with
  | ldBVx x => exact absurd ⟨x, .inl rfl⟩ h
  | ldMemIVx x => exact absurd ⟨x, .inr rfl⟩ h
  | ret | call => rw [completed]; split_ifs <;> rfl
  | _ => simp [completed]

theorem completed_i (h : ¬((∃ nnn, i = .ldINnn nnn) ∨ (∃ x, i = .addIVx x ∨ i = .ldFVx x) ∨
    (s.params.memIncrementsI = true ∧ ∃ x, i = .ldMemIVx x ∨ i = .ldVxMemI x))) : (completed i s).i = s.i := by
  cases i with
  | ldINnn nnn => exact absurd (.inl ⟨nnn, rfl⟩) h
  | addIVx x => exact absurd (.inr (.inl ⟨x, .inl rfl⟩)) h
  | ldFVx x => exact absurd (.inr (.inl ⟨x, .inr rfl⟩)) h
  | ldMemIVx x | ldVxMemI x =>
    have hstay : s.params.memIncrementsI ≠ true := fun hm => h (.inr (.inr ⟨hm, x, by simp⟩))
    simp [completed, State.steppedIndex, hstay]
  | ret | call => rw [completed]; split_ifs <;> rfl
  | _ => simp [completed]

/-- Settles O28: a fault changes only FAULT and RUN, and a completed instruction the fields named for it alone. -/
theorem specialStateWriters : Obligations.SpecialStateWriters := by
  intro i s t h
  rcases exec_cases h with ⟨k, a, -, rfl⟩ | ⟨-, rfl⟩
  · simp
  · refine ⟨not_imp_comm.mp completed_i, not_imp_comm.mp completed_sp, not_imp_comm.mp completed_stack,
      not_imp_comm.mp completed_dt, not_imp_comm.mp completed_st, not_imp_comm.mp completed_mem,
      not_imp_comm.mp completed_rndDraws, fun hl => ?_, completed_key .., completed_params ..⟩
    by_contra hn
    obtain ⟨hprev, hx⟩ := completed_latches (s := s) hn
    exact hl.elim (absurd hprev) (absurd hx)

/-! ### VF and RUN -/

/-- The instructions that write VF as a flag, or name it as their destination (R21). -/
def WritesVf (i : Instr) : Prop :=
  (∃ x y, i = .addVxVy x y ∨ i = .sub x y ∨ i = .subn x y ∨ i = .shr x y ∨ i = .shl x y) ∨
  (∃ x y n, i = .drw x y n) ∨
  (∃ kk, i = .ldVxKk 15 kk ∨ i = .addVxKk 15 kk ∨ i = .rnd 15 kk) ∨
  (∃ y, i = .ldVxVy 15 y ∨ i = .orVxVy 15 y ∨ i = .andVxVy 15 y ∨ i = .xorVxVy 15 y) ∨
  i = .ldVxDt 15 ∨ i = .ldVxMemI 15

theorem vf_setReg_advance {x : RegIdx} {b : Byte} (h : x ≠ 15) : ((s.setReg x b).advance).vf = s.vf :=
  s.reg_setReg_ne b h.symm

/-- LD Vx,[I] reaches V[F] only with x = F (R240). -/
theorem vf_loadRegs_stepIndex_advance {x : RegIdx} {bs : List Byte} (hx : x ≠ 15) (hl : bs.length = x.val + 1) :
    (((s.loadRegs 0 bs).stepIndex x).advance).vf = s.vf := by
  have hlt : x.val ≠ 15 := fun h => hx (Fin.ext h)
  have hout : ¬(0 ≤ (15 : RegIdx).val ∧ (15 : RegIdx).val - 0 < bs.length) := by
    rw [hl, show (15 : RegIdx).val = 15 from rfl]
    omega
  rw [State.stepIndex_eq]
  exact (State.reg_loadRegs bs s 0 15).trans (dif_neg hout)

theorem completed_vf (h : ¬WritesVf i) : (completed i s).vf = s.vf := by
  cases i with
  | addVxVy x y | sub x y | subn x y | shr x y | shl x y => exact absurd (.inl ⟨x, y, by simp⟩) h
  | drw x y n => exact absurd (.inr (.inl ⟨x, y, n, rfl⟩)) h
  | ldVxKk x | addVxKk x | rnd x | ldVxVy x | orVxVy x | andVxVy x | xorVxVy x | ldVxDt x =>
    have hx : x ≠ 15 := by
      rintro rfl
      exact h (by simp [WritesVf])
    exact vf_setReg_advance hx
  | ldVxMemI x =>
    have hx : x ≠ 15 := by
      rintro rfl
      exact h (by simp [WritesVf])
    exact vf_loadRegs_stepIndex_advance hx (by simp [State.peeks])
  | ret | call => rw [completed]; split_ifs <;> rfl
  | ldMemIVx x => rw [completed, State.stepIndex_eq]; rfl
  | _ => rfl

/-- Settles O29: what does not name VF and sets no flag leaves V[F] to the register it was. -/
theorem flagRegisterWriters : Obligations.FlagRegisterWriters := by
  intro i s t h hvf
  rcases exec_cases h with ⟨k, a, -, rfl⟩ | ⟨-, rfl⟩
  · exact absurd (State.raise_reg ..) hvf
  · exact not_imp_comm.mp completed_vf hvf

end Sys2Proof.Machine
end

section
/-! PROOFS. The cycle and the step: fetch, decode and the execute-phase check in the order of R252, PC by its class
(R93), and what STEP reports (R51). -/
namespace Sys2Proof.Machine

variable {s t : State} {i : Instr} {op : Word}

/-! ### PC after an instruction (R93) -/

theorem toNat_pc_add (k : Nat) (h : k < 0x10000) : (s.pc + BitVec.ofNat 16 k).toNat = pcPlus s k := by
  rw [BitVec.toNat_add, BitVec.toNat_ofNat, Nat.mod_eq_of_lt h]
  rfl

theorem toNat_skipIf_pc (c : Bool) : (s.skipIf c).pc.toNat = pcPlus s (if c then 4 else 2) := by
  rw [State.skipIf_pc]
  split_ifs
  · exact toNat_pc_add 4 (by decide)
  · exact toNat_pc_add 2 (by decide)

theorem toNat_zext16 (nnn : Addr12) : (zext16 nnn).toNat = nnn.toNat := by
  have := nnn.isLt
  rw [zext16, BitVec.toNat_setWidth]
  omega

/-- The sum of JP V0 does not reach 16 bits, so nothing is lost (R125). -/
theorem toNat_offsetTarget (nnn : Addr12) : (s.offsetTarget nnn).toNat = nnn.toNat + (s.reg 0).toNat := by
  have := nnn.isLt
  have := (s.reg 0).isLt
  rw [State.offsetTarget, BitVec.toNat_ofNat]
  omega

theorem completed_ret (h : 0 < s.sp.val) : completed .ret s = s.pop.setPc (s.top h) := dif_pos h

theorem completed_call {nnn : Addr12} (h : s.sp.val < 16) :
    completed (.call nnn) s = (s.push (s.pc + 2) h).setPc (zext16 nnn) := dif_pos h

theorem sp_pos_of_no_fault (h : instrFault .ret s = none) : 0 < s.sp.val := by
  by_contra hsp
  simp [instrFault_ret_empty (Nat.eq_zero_of_not_pos hsp)] at h

theorem sp_lt_of_no_fault {nnn : Addr12} (h : instrFault (.call nnn) s = none) : s.sp.val < 16 := by
  by_contra hsp
  simp [instrFault_call_full (s := s) (nnn := nnn) (by omega)] at h

theorem toNat_completed_pc (h : instrFault i s = none) : (completed i s).pc.toNat = pcAfter i s := by
  cases i with
  | ret =>
    have hsp := sp_pos_of_no_fault h
    have hlt : s.sp.val - 1 < 16 := by omega
    rw [completed_ret hsp]
    simp [pcAfter, State.top, hlt]
  | call nnn =>
    rw [completed_call (sp_lt_of_no_fault h)]
    exact toNat_zext16 nnn
  | jp nnn => exact toNat_zext16 nnn
  | jpV0Nnn nnn => exact toNat_offsetTarget nnn
  | ldVxK => rfl
  | seVxKk | seVxVy | sneVxKk | sneVxVy | skp => simp [completed, toNat_skipIf_pc, pcAfter, -State.skipIf_pc]
  | sknp x => cases hk : s.keyDown (s.reg x).toNat <;> simp [completed, toNat_skipIf_pc, pcAfter, hk, -State.skipIf_pc]
  | _ => simp [completed, pcAfter, pcPlus]

theorem exists_fetch_error (h : s.pc.toNat > 0xFFE) : ∃ a, s.fetch = .error a := by
  by_cases hpc : s.pc.toNat > 0xFFF
  · exact ⟨_, State.fetch_of_pc_gt hpc⟩
  · exact ⟨_, State.fetch_of_pc_eq (by omega)⟩

/-- Settles O14: an instruction that raises no fault completes, and the completed state has PC by its class. -/
theorem pcFollowsItsClass : Obligations.PcFollowsItsClass := by
  refine ⟨fun i s t hf h => ?_, fun _ => exists_fetch_error⟩
  cases (exec_of_no_fault hf).symm.trans h
  exact toNat_completed_pc hf

/-! ### One cycle (R252) -/

theorem cycleFault_fetch_error {a : Nat} (h : s.fetch = .error a) :
    cycleFault s = some (.addressOutOfRange, none, some a) := by
  rw [State.fetch_eq] at h
  unfold cycleFault
  split_ifs at h ⊢ <;> cases h <;> rfl

theorem cycleFault_decode_error {e : DecodeError} (h : s.fetch = .ok op) (hd : decode op = .error e) :
    cycleFault s = some (.unknownOpcode, some op, none) := by
  obtain ⟨hpc, rfl⟩ := State.fetch_eq_ok_iff.mp h
  rw [cycleFault, if_neg (by omega), if_neg (by omega)]
  simp [hd]

theorem cycleFault_exec (h : s.fetch = .ok op) (hd : decode op = .ok i) :
    cycleFault s = (instrFault i s).map fun f => (f.1, some op, f.2) := by
  obtain ⟨hpc, rfl⟩ := State.fetch_eq_ok_iff.mp h
  rw [cycleFault, if_neg (by omega), if_neg (by omega)]
  simp [hd]

/-- A cycle that faults puts on record what R250 lists for it, and does nothing else (R253). -/
theorem cycle_of_fault {k : FaultKind} {o : Option Word} {a : Option Nat} (h : cycleFault s = some (k, o, a)) :
    cycle s = .next (s.raise k o a) := by
  cases hf : s.fetch with
  | error b =>
    cases (cycleFault_fetch_error hf).symm.trans h
    exact cycle_fetch_error hf
  | ok op =>
    cases hd : decode op with
    | error e =>
      cases (cycleFault_decode_error hf hd).symm.trans h
      exact cycle_decode_error hf hd
    | ok i =>
      obtain ⟨f, hif, hrec⟩ := Option.map_eq_some_iff.mp ((cycleFault_exec hf hd).symm.trans h)
      cases hrec
      obtain ⟨rfl, -⟩ := encodesTo_of_decode hd
      rw [cycle_exec hf hd, exec_of_fault hif]

/-- A cycle that does not fault completes the instruction it fetched. -/
theorem cycle_of_no_fault (h : cycleFault s = none) : ∃ op i, s.fetch = .ok op ∧ decode op = .ok i ∧
    instrFault i s = none ∧ cycle s = .next (completed i s) := by
  cases hf : s.fetch with
  | error b => cases (cycleFault_fetch_error hf).symm.trans h
  | ok op =>
    cases hd : decode op with
    | error e => cases (cycleFault_decode_error hf hd).symm.trans h
    | ok i =>
      have hif : instrFault i s = none := Option.map_eq_none_iff.mp ((cycleFault_exec hf hd).symm.trans h)
      exact ⟨op, i, rfl, hd, hif, (cycle_exec hf hd).trans (exec_of_no_fault hif)⟩

/-- What one cycle can do. -/
theorem cycle_cases (h : cycle s = .next t) :
    (∃ k o a, cycleFault s = some (k, o, a) ∧ t = s.raise k o a) ∨
    ∃ op i, cycleFault s = none ∧ s.fetch = .ok op ∧ decode op = .ok i ∧ instrFault i s = none ∧
      t = completed i s := by
  cases hc : cycleFault s with
  | some f =>
    cases (cycle_of_fault hc).symm.trans h
    exact .inl ⟨f.1, f.2.1, f.2.2, rfl, rfl⟩
  | none =>
    obtain ⟨op, i, hf, hd, hif, hn⟩ := cycle_of_no_fault hc
    cases hn.symm.trans h
    exact .inr ⟨op, i, rfl, hf, hd, hif, rfl⟩

theorem exists_cycle (s : State) : ∃ t, cycle s = .next t := by
  cases hc : cycleFault s with
  | some f => exact ⟨_, cycle_of_fault hc⟩
  | none =>
    obtain ⟨_, _, -, -, -, hn⟩ := cycle_of_no_fault hc
    exact ⟨_, hn⟩

/-! ### The step (R51) -/

/-- What one step can do, by run-state. -/
theorem step_cases (h : step s = .next t) :
    ((s.run = .idle ∨ s.run = .halted) ∧ t = s) ∨ (s.run = .waitingForKey ∧ t = poll s) ∨
    (s.run = .normal ∧ cycle s = .next t) := by
  cases hrun : s.run with
  | idle =>
    cases (step_idle hrun).symm.trans h
    exact .inl ⟨.inl rfl, rfl⟩
  | halted =>
    cases (step_halted hrun).symm.trans h
    exact .inl ⟨.inr rfl, rfl⟩
  | waitingForKey =>
    cases (step_waiting hrun).symm.trans h
    exact .inr (.inl ⟨rfl, rfl⟩)
  | normal => exact .inr (.inr ⟨rfl, (step_normal hrun).symm.trans h⟩)

theorem exists_step (s : State) : ∃ t, step s = .next t := by
  cases hrun : s.run with
  | idle => exact ⟨s, step_idle hrun⟩
  | halted => exact ⟨s, step_halted hrun⟩
  | waitingForKey => exact ⟨_, step_waiting hrun⟩
  | normal =>
    obtain ⟨t, ht⟩ := exists_cycle s
    exact ⟨t, (step_normal hrun).trans ht⟩

/-- Settles O13: an instruction answers its outcome, and a step a poll, a cycle or the state it began with. -/
theorem everyStepHasNextState : Obligations.EveryStepHasNextState :=
  ⟨fun i s => ⟨_, exec_eq i s⟩, exists_step⟩

/-- Settles O10: the step of a running engine is its cycle, and the cycle runs what it decoded. -/
theorem stepRunsDecodedInstruction : Obligations.StepRunsDecodedInstruction := by
  intro s op i hrun hf hd
  rw [step_normal hrun, cycle_exec hf hd]

/-- The decoder names the word it does not know (R98). -/
theorem decode_error {e : DecodeError} (h : decode op = .error e) : e = .unknownOpcode op := by
  unfold decode decodeGroup8 decodeGroupE decodeGroupF at h
  split at h
  case h_6 | h_10 => split_ifs at h; cases h; rfl
  case h_9 | h_15 | h_16 => split at h <;> cases h; rfl
  all_goals cases h
  rfl

/-- Settles O11: the step of a running engine whose word decodes to nothing is the halt of R253. -/
theorem stepHaltsOnUnknownWord : Obligations.StepHaltsOnUnknownWord := by
  intro s op e hrun hf hd
  exact ⟨decode_error hd, (step_normal hrun).trans (cycle_decode_error hf hd)⟩

/-- A completed instruction of a running engine leaves it running or waiting. -/
theorem completed_run_of_normal (hrun : s.run = .normal) :
    (completed i s).run = if ∃ x, i = .ldVxK x then .waitingForKey else .normal := by
  split_ifs with hk
  · obtain ⟨x, rfl⟩ := hk
    rfl
  · rw [completed_run hk, hrun]

/-- Settles O15: the two outcomes of a cycle are the halt with the record of R250 and a completed instruction, which
leaves RUN and FAULT as R253 asks. -/
theorem cycleFaultsExactly : Obligations.CycleFaultsExactly := by
  intro s t hrun h
  rw [step_normal hrun] at h
  constructor
  · intro k o a hc
    cases (cycle_of_fault hc).symm.trans h
    rfl
  · intro hc
    obtain ⟨op, i, -, -, -, hn⟩ := cycle_of_no_fault hc
    cases hn.symm.trans h
    refine ⟨?_, completed_faultRec ..⟩
    rw [completed_run_of_normal hrun]
    split_ifs <;> simp

/-! ### What STEP reports (R51) -/

theorem stepStatus_halted (hrun : s.run = .normal) (ht : t.run = .halted) :
    stepStatus s t = .faulted t.faultRec := by simp [stepStatus, hrun, ht]

theorem stepStatus_waiting (hrun : s.run = .normal ∨ s.run = .waitingForKey) (ht : t.run = .waitingForKey) :
    stepStatus s t = .waiting := by rcases hrun with hrun | hrun <;> simp [stepStatus, hrun, ht]

theorem stepStatus_normal (hrun : s.run = .normal ∨ s.run = .waitingForKey) (ht : t.run = .normal) :
    stepStatus s t = .executed := by rcases hrun with hrun | hrun <;> simp [stepStatus, hrun, ht]

/-- Settles O26: the status follows RUN after the cycle, which is Halted exactly if the cycle faults and
WaitingForKey exactly if it completed LD Vx,K. -/
theorem stepReportsStatus : Obligations.StepReportsStatus := by
  intro s t hrun h
  rw [transact_step h]
  rw [step_normal hrun] at h
  constructor
  · intro hc
    obtain ⟨f, hc⟩ := Option.ne_none_iff_exists'.mp hc
    cases (cycle_of_fault hc).symm.trans h
    rw [stepStatus_halted hrun (State.raise_run ..)]
  · intro op i hf hd hc
    have hif : instrFault i s = none := Option.map_eq_none_iff.mp ((cycleFault_exec hf hd).symm.trans hc)
    cases ((cycle_exec hf hd).trans (exec_of_no_fault hif)).symm.trans h
    have hr := completed_run_of_normal (i := i) hrun
    split_ifs at hr ⊢
    · rw [stepStatus_waiting (.inl hrun) hr]
    · rw [stepStatus_normal (.inl hrun) hr]

/-- Settles O25: a step of an idle or halted engine does nothing, and the status is read off RUN before it. -/
theorem stepWhileNotRunning : Obligations.StepWhileNotRunning := by
  intro s
  constructor
  · intro hrun
    rw [transact_step (step_idle hrun)]
    simp [stepStatus, hrun]
  · intro hrun
    rw [transact_step (step_halted hrun)]
    simp [stepStatus, hrun]

/-! ### The key-wait as the only suspension (R215) -/

/-- A SET_KEY leaves RUN as it is. -/
@[simp] theorem setKey_run (k : Nat) (p : Bool) : (setKey k p s).run = s.run := by
  unfold setKey
  split_ifs <;> rfl

/-- Settles O30: of the completed instructions only LD Vx,K changes RUN, and of the transactions only STEP and LOAD. -/
theorem keyWaitIsOnlySuspension : Obligations.KeyWaitIsOnlySuspension := by
  constructor
  · intro i s t hrun h ht
    rcases exec_cases h with ⟨k, a, -, rfl⟩ | ⟨-, rfl⟩
    · cases ht
    · by_contra hk
      simp [completed_run hk, hrun] at ht
  · intro tr s t r hrun h ht
    cases tr with
    | load bytes => exact .inr ⟨bytes, rfl⟩
    | step => exact .inl rfl
    | tick =>
      cases transact_tick.symm.trans h
      exact absurd hrun ht
    | setKey k p =>
      cases (transact_setKey k p).symm.trans h
      exact absurd ((setKey_run k p).trans hrun) ht
    | snapshot =>
      cases transact_snapshot.symm.trans h
      exact absurd hrun ht
    | soundActive =>
      cases transact_soundActive.symm.trans h
      exact absurd hrun ht

end Sys2Proof.Machine
end

section
/-! PROOFS. The invariant: at power-up, through every step, every transaction and every schedule. -/
namespace Sys2Proof.Machine

variable {s t : State} {i : Instr}

/-! ### Updates that leave what the invariant speaks of -/

/-- The invariant looks at MEM, FONT_BASE, PC, the stack, RUN and FAULT alone. -/
theorem State.Inv.congr (h : s.Inv) (hmem : t.mem = s.mem) (hparams : t.params = s.params) (hpc : t.pc = s.pc)
    (hstack : t.stack = s.stack) (hrun : t.run = s.run) (hfault : t.faultRec = s.faultRec) : t.Inv where
  memWf := by
    rw [State.bg, hparams, hmem]
    exact h.memWf
  pcBound := hpc ▸ h.pcBound
  stackBound := hstack ▸ h.stackBound
  waitPc hw := hpc ▸ h.waitPc (hrun ▸ hw)
  runningClean hr := hfault ▸ h.runningClean (hrun ▸ hr)
  haltedRecord hr := by
    rw [hfault, hpc]
    exact h.haltedRecord (hrun ▸ hr)
  recordLegal r hr := h.recordLegal r (hfault ▸ hr)

/-! ### The halt (R253) -/

/-- A halt keeps the invariant if its record is one R250 describes. -/
theorem State.Inv.raise (h : s.Inv) {k : FaultKind} {o : Option Word} {a : Option Nat}
    (hl : FaultRecord.legal ⟨k, s.pc, o, a⟩) : (s.raise k o a).Inv where
  memWf := h.memWf
  pcBound := h.pcBound
  stackBound := h.stackBound
  waitPc := nofun
  runningClean := nofun
  haltedRecord _ := ⟨_, rfl, rfl⟩
  recordLegal r hr := by
    obtain rfl : _ = r := Option.some.inj hr
    exact hl

/-- The record of an address out of range holds the address, which no 16-bit register exceeds (R250). -/
theorem legal_addressOutOfRange {pc : Word} {o : Option Word} {a : Nat} (h1 : 0x1000 ≤ a) (h2 : a ≤ 0xFFFF) :
    FaultRecord.legal ⟨.addressOutOfRange, pc, o, some a⟩ := ⟨a, rfl, h1, h2⟩

theorem legal_rangeFault {base : Word} {n : Nat} {pc : Word} {o : Option Word} {f : FaultKind × Option Nat}
    (h : (rangeFault base.toNat n).map (fun a => (FaultKind.addressOutOfRange, some a)) = some f) :
    FaultRecord.legal ⟨f.1, pc, o, f.2⟩ := by
  obtain ⟨a, ha, rfl⟩ := Option.map_eq_some_iff.mp h
  have hbase := base.isLt
  unfold rangeFault at ha
  split_ifs at ha
  cases ha
  exact legal_addressOutOfRange (by omega) (by omega)

theorem legal_instrFault {f : FaultKind × Option Nat} (w : Word) (h : instrFault i s = some f) :
    FaultRecord.legal ⟨f.1, s.pc, some w, f.2⟩ := by
  cases i with
  | drw | ldBVx | ldMemIVx | ldVxMemI => exact legal_rangeFault h
  | sys | ret | call | skp | sknp =>
    simp only [instrFault] at h
    split_ifs at h
    cases h
    exact ⟨rfl, nofun⟩
  | _ => cases h

theorem legal_cycleFault {k : FaultKind} {o : Option Word} {a : Option Nat} (hpc : s.pc.toNat ≤ 0x10FE)
    (h : cycleFault s = some (k, o, a)) : FaultRecord.legal ⟨k, s.pc, o, a⟩ := by
  cases hf : s.fetch with
  | error b =>
    cases (cycleFault_fetch_error hf).symm.trans h
    rw [State.fetch_eq] at hf
    split_ifs at hf <;> cases hf
    · exact legal_addressOutOfRange (by omega) (by omega)
    · exact legal_addressOutOfRange (by decide) (by decide)
  | ok op =>
    cases hd : decode op with
    | error e =>
      cases (cycleFault_decode_error hf hd).symm.trans h
      exact ⟨rfl, nofun⟩
    | ok i =>
      obtain ⟨f, hif, hrec⟩ := Option.map_eq_some_iff.mp ((cycleFault_exec hf hd).symm.trans h)
      cases hrec
      exact legal_instrFault op hif

/-! ### A completed instruction -/

/-- PC from an address that could be fetched stays within R23's bound: the furthest target is JP V0's (D11). -/
theorem pcAfter_le (h : s.Inv) (hpc : s.pc.toNat ≤ 0xFFE) (hf : instrFault i s = none) : pcAfter i s ≤ 0x10FE := by
  cases i with
  | jp nnn | call nnn =>
    have hlt : nnn.toNat < 0x1000 := nnn.isLt
    simp only [pcAfter]
    omega
  | jpV0Nnn nnn =>
    have hlt : nnn.toNat < 0x1000 := nnn.isLt
    have h0 : (s.reg 0).toNat < 0x100 := (s.reg 0).isLt
    simp only [pcAfter]
    omega
  | ret =>
    have hsp := sp_pos_of_no_fault hf
    rw [← toNat_completed_pc hf, completed_ret hsp]
    exact (h.stackBound ⟨s.sp.val - 1, by omega⟩).trans (by decide)
  | ldVxK => exact h.pcBound
  | seVxKk | sneVxKk | seVxVy | sneVxVy | skp | sknp =>
    simp only [pcAfter, pcPlus]
    split_ifs <;> omega
  | _ =>
    simp only [pcAfter, pcPlus]
    omega

/-- A store that raises no fault ends inside MEM (R63). -/
theorem store_in_range {base n : Nat} (hi : ChecksRange i s base n) (hf : instrFault i s = none) (hn : 0 < n) :
    base + n ≤ 0x1000 := by
  by_contra hout
  simp [hi.fault ⟨hn, by omega⟩] at hf

theorem completed_mem_wf (h : s.mem.wf s.bg) (hf : instrFault i s = none) :
    (completed i s).mem.wf (completed i s).bg := by
  cases i with
  | ldBVx x =>
    have hin := store_in_range (checksRange_ldBVx x) hf (by decide)
    exact State.pokes_wf h hin
  | ldMemIVx x =>
    have hlen := s.length_regsUpTo x
    have hin := store_in_range (checksRange_ldMemIVx x) hf (Nat.succ_pos _)
    rw [completed, State.stepIndex_eq]
    exact State.pokes_wf h (by omega)
  | _ =>
    rw [completed_mem (by simp), State.bg, completed_params]
    exact h

theorem completed_stack_le (h : s.Inv) (hpc : s.pc.toNat ≤ 0xFFE) (hf : instrFault i s = none) (k : Fin 16) :
    (completed i s).stack[k].toNat ≤ 0x1000 := by
  by_cases hcall : ∃ nnn, i = .call nnn
  · obtain ⟨nnn, rfl⟩ := hcall
    have hpush : (s.pc + 2).toNat ≤ 0x1000 := by
      rw [BitVec.toNat_add]
      have h2 : (2 : Word).toNat = 2 := rfl
      omega
    rw [completed_call (sp_lt_of_no_fault hf)]
    change ((s.stack.set s.sp.val (s.pc + 2) (sp_lt_of_no_fault hf))[k.val]).toNat ≤ 0x1000
    rw [Vector.getElem_set]
    split_ifs
    · exact hpush
    · exact h.stackBound k
  · rw [completed_stack hcall]
    exact h.stackBound k

theorem inv_completed (h : s.Inv) (hrun : s.run = .normal) (hpc : s.pc.toNat ≤ 0xFFE)
    (hf : instrFault i s = none) : (completed i s).Inv where
  memWf := completed_mem_wf h.memWf hf
  pcBound := toNat_completed_pc hf ▸ pcAfter_le h hpc hf
  stackBound := completed_stack_le h hpc hf
  waitPc hw := by
    rw [completed_run_of_normal hrun] at hw
    split_ifs at hw with hk
    obtain ⟨x, rfl⟩ := hk
    exact hpc
  runningClean _ := (completed_faultRec ..).trans (h.runningClean (.inl hrun))
  haltedRecord hh := by
    rw [completed_run_of_normal hrun] at hh
    split_ifs at hh
  recordLegal r hr := h.recordLegal r ((completed_faultRec ..).symm.trans hr)

/-! ### The step -/

theorem inv_cycle (h : s.Inv) (hrun : s.run = .normal) (hc : cycle s = .next t) : t.Inv := by
  rcases cycle_cases hc with ⟨k, o, a, hf, rfl⟩ | ⟨op, i, -, hfetch, -, hif, rfl⟩
  · exact h.raise (legal_cycleFault h.pcBound hf)
  · exact inv_completed h hrun (State.fetch_eq_ok_iff.mp hfetch).1 hif

theorem State.Inv.latchKeys (h : s.Inv) : s.latchKeys.Inv := h.congr rfl rfl rfl rfl rfl rfl

/-- The end of a wait keeps the invariant: PC moves past an instruction that was fetched. -/
theorem inv_poll (h : s.Inv) (hrun : s.run = .waitingForKey) : (poll s).Inv := by
  cases hk : s.newKey with
  | none => exact poll_none hk ▸ h.latchKeys
  | some k =>
    have hclean := h.runningClean (.inr hrun)
    rw [poll_some hk]
    exact {
      memWf := h.memWf
      pcBound := by
        have hpc := h.waitPc hrun
        simp
        omega
      stackBound := h.stackBound
      waitPc := nofun
      runningClean := fun _ => hclean
      haltedRecord := nofun
      recordLegal := h.recordLegal }

/-- Settles O18: a cycle halts with a legal record or completes an instruction it could fetch; a poll goes on waiting
or ends the wait; and an idle or halted engine stays as it is. -/
theorem stepKeepsInvariant : Obligations.StepKeepsInvariant := by
  intro s t h hs
  rcases step_cases hs with ⟨-, rfl⟩ | ⟨hrun, rfl⟩ | ⟨hrun, hc⟩
  · exact h
  · exact inv_poll h hrun
  · exact inv_cycle h hrun hc

/-! ### The other transactions -/

/-- An image LOAD accepts ends inside MEM (R4, R282). -/
theorem programBase_add_le {n : Nat} (h : n ≤ Config.maxProgram) : Config.programBase + n ≤ 0x1000 := by
  unfold Config.maxProgram at h
  unfold Config.programBase
  omega

/-- A freshly initialized engine with an image that fits meets the invariant, whatever came before (R280, R282). -/
theorem inv_load_ok {bytes : List Byte} (hl : bytes.length ≤ Config.maxProgram) :
    ((s.reinit.pokes Config.programBase bytes).setRun .normal).Inv where
  memWf := State.pokes_wf (s := s.reinit) Memory.wf_nil (programBase_add_le hl)
  pcBound := show (BitVec.ofNat 16 Config.programBase).toNat ≤ 0x10FE by decide
  stackBound k := by simp
  waitPc := nofun
  runningClean _ := rfl
  haltedRecord := nofun
  recordLegal := nofun

theorem State.Inv.setIdle (h : s.Inv) : (s.setRun .idle).Inv where
  memWf := h.memWf
  pcBound := h.pcBound
  stackBound := h.stackBound
  waitPc := nofun
  runningClean := nofun
  haltedRecord := nofun
  recordLegal := h.recordLegal

theorem inv_load (h : s.Inv) (bytes : List Byte) : (load bytes s).1.Inv := by
  by_cases hl : bytes.length ≤ Config.maxProgram
  · rw [load_ok hl]
    exact inv_load_ok hl
  · rw [load_too_large (Nat.not_le.mp hl)]
    exact h.setIdle

theorem inv_setKey (h : s.Inv) (k : Nat) (p : Bool) : (setKey k p s).Inv := by
  unfold setKey
  split_ifs
  · exact h
  all_goals exact h.congr rfl rfl rfl rfl rfl rfl

/-- Settles O19: STEP by O18, LOAD from the initialized state or from the kept one, and the others touch nothing the
invariant speaks of. -/
theorem transactionKeepsInvariant : Obligations.TransactionKeepsInvariant := by
  intro tr s t r h htr
  cases tr with
  | step => exact stepKeepsInvariant s t h (step_of_transact_step htr)
  | load bytes =>
    rw [transact_load] at htr
    have hload := inv_load h bytes
    cases hb : load bytes s
    rw [hb] at htr hload
    cases htr
    exact hload
  | tick =>
    cases transact_tick.symm.trans htr
    exact h.congr rfl rfl rfl rfl rfl rfl
  | setKey k p =>
    cases (transact_setKey k p).symm.trans htr
    exact inv_setKey h k p
  | snapshot =>
    cases transact_snapshot.symm.trans htr
    exact h
  | soundActive =>
    cases transact_soundActive.symm.trans htr
    exact h

/-- Settles O17: with nothing listed, no return address and no fault, every clause holds at power-up. -/
theorem resetMeetsInvariant : Obligations.ResetMeetsInvariant where
  memWf := Memory.wf_nil
  pcBound := by decide
  stackBound k := by simp [State.reset]
  waitPc := nofun
  runningClean _ := rfl
  haltedRecord := nofun
  recordLegal := nofun

/-! ### Schedules (R12, R58) -/

theorem exists_transact (tr : Transaction) (s : State) : ∃ u r, transact tr s = .next (u, r) := by
  cases tr with
  | step =>
    obtain ⟨t, ht⟩ := exists_step s
    exact ⟨_, _, transact_step ht⟩
  | load bytes => exact ⟨_, _, transact_load bytes⟩
  | tick => exact ⟨_, _, transact_tick⟩
  | setKey k p => exact ⟨_, _, transact_setKey k p⟩
  | snapshot => exact ⟨_, _, transact_snapshot⟩
  | soundActive => exact ⟨_, _, transact_soundActive⟩

theorem exists_afterTransaction (tr : Transaction) (s : State) : ∃ t, afterTransaction tr s = .next t := by
  obtain ⟨t, r, h⟩ := exists_transact tr s
  exact ⟨t, afterTransaction_next h⟩

theorem exists_run (sch : Schedule) (s : State) (n : Nat) : ∃ t, sch.run s n = .next t := by
  induction n with
  | zero => exact ⟨s, sch.run_zero⟩
  | succ n ih =>
    obtain ⟨t, ht⟩ := ih
    cases hn : sch.nth n with
    | none => exact ⟨t, (Schedule.run_succ_ended hn).trans ht⟩
    | some tr =>
      obtain ⟨u, hu⟩ := exists_afterTransaction tr t
      exact ⟨u, (Schedule.run_succ ht hn).trans hu⟩

/-- Settles O58: every transaction answers, so a run never stops; its next state is the transaction's, or the one it
has when the schedule has ended. -/
theorem everyScheduleRuns : Obligations.EveryScheduleRuns := by
  intro sch s n
  obtain ⟨t, ht⟩ := exists_run sch s n
  refine ⟨t, ht, fun tr hn => ?_, fun hn => (Schedule.run_succ_ended hn).trans ht⟩
  obtain ⟨u, r, hu⟩ := exists_transact tr t
  exact ⟨u, r, hu, (Schedule.run_succ ht hn).trans (afterTransaction_next hu)⟩

/-- Settles O59, by induction on the number of transactions. -/
theorem schedulesKeepInvariant : Obligations.SchedulesKeepInvariant := by
  intro sch s t n h
  induction n generalizing t with
  | zero =>
    intro ht
    cases ht
    exact h
  | succ n ih =>
    intro ht
    obtain ⟨u, hu⟩ := exists_run sch s n
    cases hn : sch.nth n with
    | none =>
      cases (hu.symm.trans (Schedule.run_succ_ended hn).symm).trans ht
      exact ih t hu
    | some tr =>
      obtain ⟨w, r, hw⟩ := exists_transact tr u
      cases ((afterTransaction_next hw).symm.trans (Schedule.run_succ hu hn).symm).trans ht
      exact transactionKeepsInvariant tr u t r (ih u hu) hw

/-- Carrying out one more transaction after a list of them. -/
theorem runSchedule_concat {trs : List Transaction} {tr : Transaction} : ∀ {s t : State},
    runSchedule trs s = .next t → runSchedule (trs ++ [tr]) s = afterTransaction tr t := by
  induction trs with
  | nil =>
    intro s t h
    cases h
    obtain ⟨u, hu⟩ := exists_afterTransaction tr s
    rw [List.nil_append, runSchedule_cons hu, hu, runSchedule_nil]
  | cons tr' trs ih =>
    intro s t h
    obtain ⟨u, hu⟩ := exists_afterTransaction tr' s
    rw [runSchedule_cons hu] at h
    rw [List.cons_append, runSchedule_cons hu, ih h]

/-- A run whose first `n` transactions are those of a list leads to where the list leads. -/
theorem run_eq_runSchedule {sch : Schedule} {trs : List Transaction} {n : Nat} (s : State) (hl : trs.length = n)
    (h : ∀ k, (hk : k < trs.length) → sch.nth k = some trs[k]) : sch.run s n = runSchedule trs s := by
  subst hl
  induction trs using List.reverseRecOn with
  | nil => rfl
  | append_singleton trs tr ih =>
    have hlast : sch.nth trs.length = some tr := by simpa using h trs.length (by simp)
    have hinit : sch.run s trs.length = runSchedule trs s := ih fun k hk => by
      rw [h k (by rw [List.length_append]; omega), List.getElem_append_left hk]
    obtain ⟨t, ht⟩ := exists_run sch s trs.length
    rw [List.length_append, List.length_singleton, Schedule.run_succ ht hlast,
      runSchedule_concat (hinit.symm.trans ht)]

/-- From its length on the run of a finite schedule stays where it is. -/
theorem run_finite_of_le {trs : List Transaction} {n : Nat} (h : trs.length ≤ n) :
    (Schedule.finite trs).run s n = (Schedule.finite trs).run s trs.length := by
  induction n, h using Nat.le_induction with
  | base => rfl
  | succ n hn ih => rw [Schedule.run_succ_ended (by simpa using hn), ih]

/-- Settles O60: both runs carry out the same transactions in the same order, and an ended one stays. -/
theorem scheduleRunsByItsBeginnings : Obligations.ScheduleRunsByItsBeginnings := by
  constructor
  · intro f s n
    exact run_eq_runSchedule s (by simp) fun k hk => by simp
  · intro trs s n hn
    rw [run_finite_of_le hn]
    exact run_eq_runSchedule s rfl fun k hk => by simp [hk]

end Sys2Proof.Machine
end

section
/-! PROOFS. Frames: what each update of State can change, as rules about `onlyChanges`, and the instructions that write
registers, PC, the timers, I or the stack. -/
namespace Sys2Proof.Machine

namespace onlyChanges

variable {A : Part → Prop} {s t u : State}

/-! ### Frames compose -/

theorem refl : onlyChanges A s s := fun p _ => by cases p <;> rfl

theorem trans (h : onlyChanges A s t) (h' : onlyChanges A t u) : onlyChanges A s u := by
  intro p hp
  have h1 := h p hp
  have h2 := h' p hp
  cases p <;> exact Eq.trans h2 h1

/-! ### One rule for each update -/

theorem setReg {x : RegIdx} (b : Byte) (hx : A (.v x)) : onlyChanges A s (s.setReg x b) := by
  intro p hp
  cases p with
  | v r =>
    have hr : r ≠ x := by
      rintro rfl
      exact hp hx
    exact s.reg_setReg_ne b hr
  | _ => rfl

theorem writeResultFlag {x : RegIdx} (b : Byte) (c : Bool) (hx : A (.v x)) (hf : A (.v 15)) :
    onlyChanges A s (s.writeResultFlag x b c) := by
  unfold State.writeResultFlag
  cases s.params.vfWriteOrder with
  | flagLast => exact (setReg b hx).trans (setReg _ hf)
  | resultLast => exact (setReg _ hf).trans (setReg b hx)

theorem setPc (a : Word) (h : A .pc) : onlyChanges A s (s.setPc a) := by
  intro p hp
  cases p with
  | pc => exact absurd h hp
  | _ => rfl

theorem advance (h : A .pc) : onlyChanges A s s.advance := setPc _ h

theorem skipIf (c : Bool) (h : A .pc) : onlyChanges A s (s.skipIf c) := setPc _ h

theorem setI (a : Word) (h : A .i) : onlyChanges A s (s.setI a) := by
  intro p hp
  cases p with
  | i => exact absurd h hp
  | _ => rfl

theorem setDt (b : Byte) (h : A .dt) : onlyChanges A s (s.setDt b) := by
  intro p hp
  cases p with
  | dt => exact absurd h hp
  | _ => rfl

theorem setSt (b : Byte) (h : A .st) : onlyChanges A s (s.setSt b) := by
  intro p hp
  cases p with
  | st => exact absurd h hp
  | _ => rfl

theorem setRun (r : RunState) (h : A .run) : onlyChanges A s (s.setRun r) := by
  intro p hp
  cases p with
  | run => exact absurd h hp
  | _ => rfl

theorem drawn (h : A .rndDraws) : onlyChanges A s s.drawn := by
  intro p hp
  cases p with
  | rndDraws => exact absurd h hp
  | _ => rfl

theorem latchKeys (h : A .keyPrev) : onlyChanges A s s.latchKeys := by
  intro p hp
  cases p with
  | keyPrev => exact absurd h hp
  | _ => rfl

theorem enterWait (x : RegIdx) (hx : A .waitX) (hr : A .run) : onlyChanges A s (s.enterWait x) := by
  intro p hp
  cases p with
  | waitX => exact absurd hx hp
  | run => exact absurd hr hp
  | _ => rfl

theorem push {a : Word} {h : s.sp.val < 16} (hsp : A .sp) (hk : A (.stack ⟨s.sp.val, h⟩)) :
    onlyChanges A s (s.push a h) := by
  intro p hp
  cases p with
  | sp => exact absurd hsp hp
  | stack k =>
    have hne : s.sp.val ≠ k.val := fun e => hp ((Fin.ext e : (⟨s.sp.val, h⟩ : Fin 16) = k) ▸ hk)
    exact Vector.getElem_set_ne h k.isLt hne
  | _ => rfl

theorem pop (h : A .sp) : onlyChanges A s s.pop := by
  intro p hp
  cases p with
  | sp => exact absurd h hp
  | _ => rfl

/-- Storing bytes changes the addresses they are stored at (R62). -/
theorem pokes {base : Nat} {bs : List Byte} (hwf : s.mem.wf s.bg) (hl : base + bs.length ≤ 0x1000)
    (h : ∀ j < bs.length, A (.mem (base + j))) : onlyChanges A s (s.pokes base bs) := by
  intro p hp
  cases p with
  | mem a =>
    have hout : ¬(base ≤ a ∧ a - base < bs.length) := by
      rintro ⟨h1, h2⟩
      have ha := h _ h2
      rw [Nat.add_sub_cancel' h1] at ha
      exact hp ha
    exact (State.peek_pokes hwf hl a).trans (dif_neg hout)
  | _ => rfl

theorem stepIndex (x : RegIdx) (h : A .i) : onlyChanges A s (s.stepIndex x) := s.stepIndex_eq x ▸ setI _ h

theorem loadRegs {bs : List Byte} (h : ∀ r : RegIdx, r.val < bs.length → A (.v r)) :
    onlyChanges A s (s.loadRegs 0 bs) := by
  intro p hp
  cases p with
  | v r =>
    have hout : ¬(0 ≤ r.val ∧ r.val - 0 < bs.length) := fun hr => hp (h r hr.2)
    exact (State.reg_loadRegs bs s 0 r).trans (dif_neg hout)
  | _ => rw [State.loadRegs_eq]; rfl

end onlyChanges
end Sys2Proof.Machine
end

section
/-! PROOFS. Control transfer and skips (R120 to R145). -/
namespace Sys2Proof.Machine

variable {s : State}

/-! ### SYS, JP, JP V0 (R120, R122, R125) -/

/-- Settles O31: SYS passes on in one mode and is the halt of R253 in the other. -/
theorem sysFollowsItsMode : Obligations.SysFollowsItsMode := by
  intro nnn s
  constructor
  · intro hm
    exact ⟨_, exec_of_no_fault (instrFault_sys_nop hm), rfl, .advance rfl⟩
  · intro hm
    exact exec_of_fault (instrFault_sys_fault hm)

/-- Settles O32: both jumps write PC alone, with targets that fit in 16 bits. -/
theorem jumpsSetPc : Obligations.JumpsSetPc := by
  intro nnn s
  exact ⟨⟨_, rfl, toNat_zext16 nnn, .setPc _ rfl⟩, ⟨_, rfl, toNat_offsetTarget nnn, .setPc _ rfl⟩⟩

/-! ### CALL and RET (R121, R123) -/

theorem exec_call_of_room {nnn : Addr12} (h : s.sp.val < 16) :
    exec (.call nnn) s = .next ((s.push (s.pc + 2) h).setPc (zext16 nnn)) := by
  rw [exec_of_no_fault (instrFault_call_of_room h), completed_call h]

theorem exec_ret_of_pos (h : 0 < s.sp.val) : exec .ret s = .next (s.pop.setPc (s.top h)) := by
  rw [exec_of_no_fault (instrFault_ret_of_pos h), completed_ret h]

/-- The entry CALL pushes is the one at the old SP. -/
theorem push_stack_at {k : Fin 16} {a : Word} (h : s.sp.val < 16) (hk : s.sp.val = k.val) :
    (s.push a h).stack[k] = a := by simp [hk]

/-- Settles O33: with room on the stack CALL is a push and a jump. -/
theorem callPushesReturnAddress : Obligations.CallPushesReturnAddress := by
  intro nnn s k hk
  have hroom : s.sp.val < 16 := hk ▸ k.isLt
  refine ⟨_, exec_call_of_room hroom, push_stack_at hroom hk, rfl, toNat_zext16 nnn, ?_⟩
  have hslot : (⟨s.sp.val, hroom⟩ : Fin 16) = k := Fin.ext hk
  exact (onlyChanges.push (.inr (.inl rfl)) (.inr (.inr (congrArg _ hslot)))).trans (.setPc _ (.inl rfl))

/-- Settles O34: with an entry on the stack RET is a pop and a jump to the top entry. -/
theorem retPopsReturnAddress : Obligations.RetPopsReturnAddress := by
  intro s k hk
  have hpos : 0 < s.sp.val := by omega
  refine ⟨_, exec_ret_of_pos hpos, ?_, rfl, (onlyChanges.pop (.inr rfl)).trans (.setPc _ (.inl rfl))⟩
  simp [State.top, hk]

/-- Settles O35: the checks of CALL and RET fail at their end of the stack. -/
theorem stackLimitsFault : Obligations.StackLimitsFault :=
  fun _ _ => ⟨fun h => exec_of_fault (instrFault_call_full h), fun h => exec_of_fault (instrFault_ret_empty h)⟩

/-- Settles O36: the RET pops what the CALL pushed, and SP goes up and down by one. -/
theorem callThenRetReturns : Obligations.CallThenRetReturns := by
  intro nnn s t u k hk ht husp hutop
  have hroom : s.sp.val < 16 := hk ▸ k.isLt
  cases (exec_call_of_room hroom).symm.trans ht
  have hu : u.sp.val = k.val + 1 := by rw [husp, ← hk]; rfl
  obtain ⟨w, hw, hpc, hsp, -⟩ := retPopsReturnAddress u k hu
  refine ⟨w, hw, ?_, Fin.ext (by omega)⟩
  rw [hpc, hutop]
  exact push_stack_at hroom hk

/-! ### Skips (R140 to R145) -/

/-- A skip moves PC by its condition and nothing else. -/
theorem exists_skip {r : Result} {c : Bool} {p : Prop} [Decidable p] (hr : r = .next (s.skipIf c)) (hc : c = decide p) :
    ∃ t, r = .next t ∧ t.pc = (if p then s.pc + 4 else s.pc + 2) ∧ onlyChanges (fun q => q = .pc) s t := by
  refine ⟨_, hr, ?_, .skipIf c rfl⟩
  rw [State.skipIf_pc, hc]
  simp

/-- Settles O37: each comparison is the condition of its skip. -/
theorem registerSkips : Obligations.RegisterSkips := by
  intro x y kk s
  exact ⟨exists_skip rfl rfl, exists_skip rfl (by simp [bne, BEq.beq]), exists_skip rfl rfl,
    exists_skip rfl (by simp [bne, BEq.beq])⟩

theorem skipOnKey_of_le {i : Instr} {x : RegIdx} (h : (s.reg x).toNat ≤ 0xF) (down : Bool) :
    skipOnKey i x down s = .next (s.skipIf (s.keyDown (s.reg x).toNat == down)) := by
  rw [skipOnKey_eq, if_neg (by omega)]

/-- Settles O38: the key V[x] names is the condition of both key skips. -/
theorem keySkips : Obligations.KeySkips := by
  intro x s h
  exact ⟨exists_skip (skipOnKey_of_le h true) rfl, exists_skip (skipOnKey_of_le h false) rfl⟩

/-- Settles O39: the check of both key skips fails above 0xF. -/
theorem keySkipsFaultOnBadIndex : Obligations.KeySkipsFaultOnBadIndex :=
  fun x _ h => ⟨exec_of_fault (i := .skp x) (if_pos h), exec_of_fault (i := .sknp x) (if_pos h)⟩

end Sys2Proof.Machine
end

section
/-! PROOFS. Register loads, arithmetic, logic, shifts, the random byte (R160 to R176). -/
namespace Sys2Proof.Machine

variable {s : State} {x y : RegIdx} {a b : Byte} {c : Bool}

/-! ### Results and flags as numbers -/

theorem toNat_addMod : (addMod a b).toNat = (a.toNat + b.toNat) % 256 := BitVec.toNat_ofNat ..

theorem toNat_subMod : (subMod a b).toNat = (a.toNat + 256 - b.toNat) % 256 := BitVec.toNat_ofNat ..

theorem toNat_shiftRight1 : (shiftRight1 a).toNat = a.toNat / 2 := by
  have := a.isLt
  rw [shiftRight1, BitVec.toNat_ofNat]
  omega

theorem toNat_shiftLeft1 : (shiftLeft1 a).toNat = a.toNat * 2 % 256 := BitVec.toNat_ofNat ..

theorem flagByte_carry : flagByte (carry a b) = if a.toNat + b.toNat > 255 then 1 else 0 := by
  simp [flagByte, carry]

theorem flagByte_noBorrow : flagByte (noBorrow a b) = if a.toNat ≥ b.toNat then 1 else 0 := by
  simp [flagByte, noBorrow]

theorem flagByte_outRight : flagByte (outRight a) = if a.toNat % 2 = 1 then 1 else 0 := by
  have hbit : outRight a = decide (a.toNat % 2 = 1) := Nat.testBit_zero ..
  simp [flagByte, hbit]

theorem flagByte_outLeft : flagByte (outLeft a) = if a.toNat ≥ 128 then 1 else 0 := by
  have hbit : outLeft a = decide (128 ≤ a.toNat) := a.msb_eq_getLsbD_last.symm.trans a.msb_eq_decide
  simp [flagByte, hbit]

/-! ### The two ways an instruction writes registers -/

/-- Every instruction through `writeVx` writes V[x] alone. -/
theorem exists_writeVx (x : RegIdx) (b : Byte) (s : State) :
    ∃ t, writeVx x b s = .next t ∧ t.reg x = b ∧ onlyWritesVx x s t :=
  ⟨_, rfl, s.reg_setReg_self x b, rfl, (onlyChanges.setReg b (.inr rfl)).trans (.advance (.inl rfl))⟩

/-- Every instruction through `writeVxVf` writes V[x] and VF alone, and with x other than F the two do not meet. -/
theorem exists_writeVxVf {n : Nat} {f : Byte} (x : RegIdx) (s : State) (hb : b.toNat = n) (hc : flagByte c = f) :
    ∃ t, writeVxVf x b c s = .next t ∧ onlyWritesVxVf x s t ∧ (x ≠ 15 → (t.reg x).toNat = n ∧ t.vf = f) := by
  have hreg := fun r => s.reg_writeResultFlag x r b c
  subst hb hc
  refine ⟨_, rfl, ⟨?_, ?_⟩, fun hx => ⟨?_, ?_⟩⟩
  · rw [State.writeResultFlag_eq]
    rfl
  · exact (onlyChanges.writeResultFlag b c (.inr (.inl rfl)) (.inr (.inr rfl))).trans (.advance (.inl rfl))
  · exact congrArg BitVec.toNat ((hreg x).trans (by simp [hx]))
  · exact (hreg 15).trans (by simp [hx])

/-- With x = F the two writes meet, and VF holds the one that comes last (R160). -/
theorem exists_writeVxVf_vf (b : Byte) (c : Bool) (s : State) : ∃ t, writeVxVf 15 b c s = .next t ∧
    (s.params.vfWriteOrder = .flagLast → t.vf = flagByte c) ∧ (s.params.vfWriteOrder = .resultLast → t.vf = b) := by
  refine ⟨_, rfl, fun ho => ?_, fun ho => ?_⟩
  · exact (s.reg_writeResultFlag 15 15 b c).trans (by simp [ho])
  · exact (s.reg_writeResultFlag 15 15 b c).trans (by simp [ho])

theorem shiftOperand_eq (hx : s.params.shiftSource = .vx → a = s.reg x)
    (hy : s.params.shiftSource = .vy → a = s.reg y) : s.shiftOperand x y = a := by
  unfold State.shiftOperand
  cases hsrc : s.params.shiftSource with
  | vx => exact (hx hsrc).symm
  | vy => exact (hy hsrc).symm

/-! ### The statements -/

/-- Settles O40: each of the five writes its operand's value to V[x]. -/
theorem loadsAndLogicWriteVx : Obligations.LoadsAndLogicWriteVx := by
  intro x y kk s
  exact ⟨exists_writeVx x _ s, exists_writeVx x _ s, exists_writeVx x _ s, exists_writeVx x _ s, exists_writeVx x _ s⟩

/-- Settles O41: the results are the naturals' modulo 256, the flags their carry and borrow. -/
theorem arithmeticWrapsModulo256 : Obligations.ArithmeticWrapsModulo256 := by
  intro x y kk s
  obtain ⟨t, ht, hreg, hframe⟩ := exists_writeVx x (addMod (s.reg x) kk) s
  exact ⟨⟨t, ht, hreg ▸ toNat_addMod, hframe⟩, exists_writeVxVf x s toNat_addMod flagByte_carry,
    exists_writeVxVf x s toNat_subMod flagByte_noBorrow, exists_writeVxVf x s toNat_subMod flagByte_noBorrow⟩

/-- Settles O42: the operand is the one SHIFT_SOURCE names, the flag the bit its shift drops. -/
theorem shiftsByOne : Obligations.ShiftsByOne := by
  intro x y s a hx hy
  have ha : s.shiftOperand x y = a := shiftOperand_eq hx hy
  subst ha
  exact ⟨exists_writeVxVf x s toNat_shiftRight1 flagByte_outRight,
    exists_writeVxVf x s toNat_shiftLeft1 flagByte_outLeft⟩

/-- Settles O43: all five go through the two writes of R160, which meet in VF. -/
theorem flagAndResultOrder : Obligations.FlagAndResultOrder := by
  intro y s a hx hy
  have ha : s.shiftOperand 15 y = a := shiftOperand_eq hx hy
  subst ha
  obtain ⟨t1, h1, hf1, hr1⟩ := exists_writeVxVf_vf (addMod s.vf (s.reg y)) (carry s.vf (s.reg y)) s
  obtain ⟨t2, h2, hf2, hr2⟩ := exists_writeVxVf_vf (subMod s.vf (s.reg y)) (noBorrow s.vf (s.reg y)) s
  obtain ⟨t3, h3, hf3, hr3⟩ := exists_writeVxVf_vf (subMod (s.reg y) s.vf) (noBorrow (s.reg y) s.vf) s
  obtain ⟨t4, h4, hf4, hr4⟩ :=
    exists_writeVxVf_vf (shiftRight1 (s.shiftOperand 15 y)) (outRight (s.shiftOperand 15 y)) s
  obtain ⟨t5, h5, hf5, hr5⟩ :=
    exists_writeVxVf_vf (shiftLeft1 (s.shiftOperand 15 y)) (outLeft (s.shiftOperand 15 y)) s
  refine ⟨t1, t2, t3, t4, t5, h1, h2, h3, h4, h5, fun ho => ?_, fun ho => ?_⟩
  · rw [hf1 ho, hf2 ho, hf3 ho, hf4 ho, hf5 ho]
    exact ⟨flagByte_carry, flagByte_noBorrow, flagByte_noBorrow, flagByte_outRight, flagByte_outLeft⟩
  · rw [hr1 ho, hr2 ho, hr3 ho, hr4 ho, hr5 ho]
    exact ⟨toNat_addMod, toNat_subMod, toNat_subMod, toNat_shiftRight1, toNat_shiftLeft1⟩

/-- Settles O44: the draw moves the count by one, and its value, whatever it is, goes to V[x] masked. -/
theorem rndTakesOneDraw : Obligations.RndTakesOneDraw := by
  intro x kk s
  refine ⟨_, rfl, State.reg_setReg_self .., rfl, rfl, ?_⟩
  exact ((onlyChanges.drawn (.inr (.inr rfl))).trans (.setReg _ (.inr (.inl rfl)))).trans (.advance (.inl rfl))

end Sys2Proof.Machine
end

section
/-! PROOFS. Timers, keys, the wait for a key, the index register (R210 to R235), and the transactions TICK and
SET_KEY. -/
namespace Sys2Proof.Machine

variable {s : State}

/-! ### Timers and I (R210, R216, R217, R230 to R234) -/

/-- Settles O48: each of the three writes one byte and moves past itself. -/
theorem timerMoves : Obligations.TimerMoves := by
  intro x s
  exact ⟨exists_writeVx x s.dt s,
    ⟨_, rfl, rfl, rfl, (onlyChanges.setDt _ (.inr rfl)).trans (.advance (.inl rfl))⟩,
    ⟨_, rfl, rfl, rfl, (onlyChanges.setSt _ (.inr rfl)).trans (.advance (.inl rfl))⟩⟩

/-- The glyph address of any V[x] fits in 16 bits, so nothing is lost (R234). -/
theorem toNat_glyphAddr (x : RegIdx) : (s.glyphAddr x).toNat = s.params.fontBase.val + 5 * (s.reg x).toNat := by
  have hbase := s.params.fontBase.isLt
  have hreg := (s.reg x).isLt
  rw [State.glyphAddr, Config.glyphBytes, BitVec.toNat_ofNat]
  omega

/-- The instructions that load I write I and move past themselves. -/
theorem exists_setI {n : Nat} {a : Word} (s : State) (ha : a.toNat = n) :
    ∃ t, (.next (s.setI a).advance : Result) = .next t ∧ t.i.toNat = n ∧ t.pc = s.pc + 2 ∧
      onlyChanges (fun p => p = .pc ∨ p = .i) s t :=
  ⟨_, rfl, ha, rfl, (onlyChanges.setI a (.inr rfl)).trans (.advance (.inl rfl))⟩

/-- Settles O52: the three values I takes. -/
theorem indexRegisterLoads : Obligations.IndexRegisterLoads := by
  intro x nnn s
  exact ⟨exists_setI s (toNat_zext16 nnn), exists_setI s (BitVec.toNat_ofNat ..), exists_setI s (toNat_glyphAddr x)⟩

/-! ### The wait for a key (R212, R213) -/

/-- A key is new at a poll if it is down and was up at the previous one. -/
theorem getLsbD_newKeys {k : Nat} (hk : k < 16) :
    (s.key &&& ~~~s.keyPrev).getLsbD k = (s.keyDown k && !s.keyPrev.getLsbD k) := by
  simp [State.keyDown, hk]

theorem newKey_eq_none_iff : s.newKey = none ↔ ∀ k < 16, s.keyDown k = true → s.keyPrev.getLsbD k = true := by
  have hfind : s.newKey = none ↔ ∀ k < 16, (s.key &&& ~~~s.keyPrev).getLsbD k = false := by
    simp [State.newKey, -BitVec.getLsbD_and]
  rw [hfind]
  refine forall₂_congr fun k hk => ?_
  rw [getLsbD_newKeys hk]
  cases s.keyDown k <;> simp

theorem newKey_eq_some_iff {k : Nat} (hk : k < 16) : s.newKey = some k ↔
    s.keyDown k = true ∧ s.keyPrev.getLsbD k = false ∧ ∀ j < k, s.keyDown j = true → s.keyPrev.getLsbD j = true := by
  have hlower : (∀ j < k, (s.key &&& ~~~s.keyPrev).getLsbD j = false) ↔
      ∀ j < k, s.keyDown j = true → s.keyPrev.getLsbD j = true := by
    refine forall₂_congr fun j hj => ?_
    rw [getLsbD_newKeys (hj.trans hk)]
    cases s.keyDown j <;> simp
  rw [State.newKey_some, hlower, getLsbD_newKeys hk]
  simp [hk, and_assoc]

theorem transact_poll_waiting (hrun : s.run = .waitingForKey) (h : s.newKey = none) :
    transact .step s = .next (s.latchKeys, .stepped .waiting) := by
  rw [transact_step ((step_waiting hrun).trans (congrArg _ (poll_none h))),
    stepStatus_waiting (t := s.latchKeys) (.inr hrun) hrun]

/-- Settles O49: the entry latches KEY, so at the next poll no key is new and KEY_PREV is latched as it is. -/
theorem keyWaitEntry : Obligations.KeyWaitEntry := by
  intro x s
  have hnone : (s.latchKeys.enterWait x).newKey = none := newKey_eq_none_iff.mpr fun _ _ h => h
  refine ⟨_, rfl, rfl, rfl, rfl, ?_, transact_poll_waiting rfl hnone⟩
  exact (onlyChanges.latchKeys (.inl rfl)).trans (.enterWait x (.inr (.inl rfl)) (.inr (.inr rfl)))

/-- Settles O50: a poll that finds no new key latches KEY and does nothing else. -/
theorem pollWithoutNewKeyWaits : Obligations.PollWithoutNewKeyWaits := by
  intro s hrun h
  exact ⟨_, transact_poll_waiting hrun (newKey_eq_none_iff.mpr h), rfl, .latchKeys rfl⟩

/-- Settles O51: the key given is the one the poll finds, and the wait ends with it. -/
theorem pollWithNewKeyCompletes : Obligations.PollWithNewKeyCompletes := by
  intro s k hrun hk hdown hup hlower
  have hnew : s.newKey = some k := (newKey_eq_some_iff hk).mpr ⟨hdown, hup, hlower⟩
  have hstep := (step_waiting hrun).trans (congrArg _ (poll_some hnew))
  refine ⟨((s.setReg s.waitX (BitVec.ofNat 8 k)).latchKeys.setRun .normal).advance, ?_, ?_, rfl, rfl, rfl, ?_⟩
  · rw [transact_step hstep, stepStatus_normal (.inr hrun) rfl]
  · have hreg : (s.setReg s.waitX (BitVec.ofNat 8 k)).reg s.waitX = BitVec.ofNat 8 k := s.reg_setReg_self ..
    refine (congrArg BitVec.toNat hreg).trans ?_
    rw [BitVec.toNat_ofNat]
    omega
  · exact (((onlyChanges.setReg _ (.inl rfl)).trans (.latchKeys (.inr (.inl rfl)))).trans
      (.setRun _ (.inr (.inr (.inl rfl))))).trans (.advance (.inr (.inr (.inr rfl))))

/-! ### TICK and SET_KEY (R53, R220) -/

theorem toNat_tickDown (b : Byte) : (tickDown b).toNat = b.toNat - 1 := by
  unfold tickDown
  split_ifs with h
  · have h1 : (1 : Byte).toNat = 1 := rfl
    rw [BitVec.toNat_sub_of_le (by rw [BitVec.le_def]; omega), h1]
  · omega

/-- Settles O22: both timers take their tick, and only they. -/
theorem tickCountsDown : Obligations.TickCountsDown := by
  intro s
  exact ⟨_, transact_tick, toNat_tickDown s.dt, toNat_tickDown s.st,
    (onlyChanges.setDt _ (.inl rfl)).trans (.setSt _ (.inr rfl))⟩

theorem setKey_of_gt {k : Nat} (h : k > 15) (p : Bool) : setKey k p s = s := if_pos h

/-- KEY[j] after SET_KEY(k, p). -/
theorem keyDown_setKey {k j : Nat} (hk : k ≤ 15) (hj : j ≤ 15) (p : Bool) :
    (setKey k p s).keyDown j = if j = k then p else s.keyDown j := by
  have hlt : j < 16 := by omega
  rw [setKey, if_neg (by omega)]
  by_cases hjk : j = k
  · subst hjk
    cases p <;> simp [State.keyDown, hlt]
  · cases p <;> simp [State.keyDown, hlt, hjk]

/-- SET_KEY changes KEY alone. -/
theorem onlyChanges_setKey (k : Nat) (p : Bool) : onlyChanges (fun q => q = .key) s (setKey k p s) := by
  intro q hq
  unfold setKey
  split_ifs with h
  · exact onlyChanges.refl (A := fun q => q = .key) q hq
  all_goals
    cases q with
    | key => exact absurd rfl hq
    | _ => rfl

/-- Settles O23: the bit of KEY at k takes the value given, every other bit and part stays. -/
theorem setKeySetsOneKey : Obligations.SetKeySetsOneKey := by
  intro s k p
  refine ⟨_, transact_setKey k p, fun hk => setKey_of_gt hk p, fun hk => ?_, fun j hj hne => ?_,
    onlyChanges_setKey k p⟩
  · rw [keyDown_setKey hk hk, if_pos rfl]
  · by_cases hk : k ≤ 15
    · rw [keyDown_setKey hk hj, if_neg hne]
    · rw [setKey_of_gt (Nat.not_le.mp hk)]

end Sys2Proof.Machine
end

section
/-! PROOFS. Memory: the primitives of R62, the canonical form, words placed and stored where they are fetched, what
LOAD and power-up leave in MEM, and the transfers through I (R236 to R242). -/
namespace Sys2Proof.Machine

variable {s t u : State}

/-! ### The canonical form (log entry 5) -/

namespace Memory

variable {bg : Nat → Byte}

/-- A canonical memory lists exactly the addresses that do not read as unlisted, with the bytes they read as. -/
theorem mem_iff_read {m : Memory} (h : Memory.wf bg m) (a : Nat) (b : Byte) :
    (a, b) ∈ m ↔ Memory.read bg m a = b ∧ b ≠ bg a := by
  induction m with
  | nil =>
    rw [read_nil]
    exact ⟨nofun, fun ⟨h1, h2⟩ => absurd h1.symm h2⟩
  | cons c m ih =>
    obtain ⟨k, c⟩ := c
    have hbelow := (List.pairwise_cons.mp h.1).1
    have hc := (h.2 (k, c) (List.mem_cons_self ..)).2
    rw [List.mem_cons, ih (wf_tail h), read_cons, Prod.mk.injEq]
    split_ifs with h1 h2
    · rw [read_below fun d hd => h1.trans (hbelow d hd)]
      exact or_iff_right fun he => absurd he.1 h1.ne
    · subst h2
      rw [read_below hbelow]
      constructor
      · rintro (⟨-, rfl⟩ | ⟨rfl, hb⟩)
        · exact ⟨rfl, hc⟩
        · exact absurd rfl hb
      · rintro ⟨rfl, -⟩
        exact .inl ⟨rfl, rfl⟩
    · exact or_iff_right fun he => absurd he.1 h2

end Memory

/-- Settles O7: canonical memories that read alike list the same cells in the same order. -/
theorem canonicalMemoriesAreEqual : Obligations.CanonicalMemoriesAreEqual := by
  intro bg m m' h h' hread
  refine List.Pairwise.eq_of_mem_iff (r := fun c d : Host.Cell => c.1 < d.1) h.1 h'.1 fun (a, b) => ?_
  rw [Memory.mem_iff_read h, Memory.mem_iff_read h', hread]

/-! ### The primitives (R62) -/

theorem memRead_of_le {a : Nat} (h : a ≤ 0xFFF) : s.memRead a = .ok (s.peek a) := by
  rw [State.memRead_eq, if_neg (by omega)]

/-- A byte put at an address changes that address alone. -/
theorem onlyChanges.poke {A : Part → Prop} {a : Nat} (b : Byte) (hwf : s.mem.wf s.bg) (h : A (.mem a)) :
    onlyChanges A s (s.poke a b) := by
  intro p hp
  cases p with
  | mem a' =>
    have hne : a' ≠ a := by
      rintro rfl
      exact hp h
    exact State.peek_poke_other hwf b hne
  | _ => rfl

/-- Settles O6: one range check for both primitives, and in range a read of MEM or one byte put there. -/
theorem memoryPrimitives : Obligations.MemoryPrimitives := by
  intro s a b hwf
  constructor
  · intro h
    exact ⟨if_pos h, if_pos h⟩
  · intro h
    have hwrite : s.memWrite a b = .ok (s.poke a b) := if_neg (Nat.not_lt.mpr h)
    refine ⟨memRead_of_le h, _, hwrite, ?_, .poke b hwf rfl⟩
    rw [memRead_of_le h, State.peek_poke_same hwf]

/-! ### The model's own loader (log entry 6) -/

theorem tableWord_16 (w : Nat) : tableWord 16 w = BitVec.ofNat 16 w := by
  apply BitVec.eq_of_toNat_eq
  simp [tableWord]

theorem decode_of_decodeTableWord {w : Nat} {i : Instr} (h : decodeTableWord 16 w = some i) :
    decode (BitVec.ofNat 16 w) = .ok i := by
  rw [← tableWord_16]
  cases hd : decode (tableWord 16 w) <;> simp [decodeTableWord, decodeBytes, hd] at h
  rw [h]

/-- The placed bytes are read back at PC and PC + 1. -/
theorem fetch_withFetchWord (hwf : s.mem.wf s.bg) (hpc : s.pc.toNat ≤ 0xFFE) (w : Nat) :
    (s.withFetchWord 16 w).fetch = .ok (BitVec.ofNat 16 w) := by
  have hwf' := State.poke_wf hwf (hiByte (tableWord 16 w)) (hpc.trans (by decide : 0xFFE ≤ 0xFFF))
  refine State.fetch_eq_ok_iff.mpr ⟨hpc, ?_⟩
  have hhi : (s.withFetchWord 16 w).peek s.pc.toNat = hiByte (tableWord 16 w) :=
    (State.peek_poke_other hwf' _ (Nat.lt_succ_self _).ne).trans (State.peek_poke_same hwf ..)
  have hlo : (s.withFetchWord 16 w).peek (s.pc.toNat + 1) = loByte (tableWord 16 w) := State.peek_poke_same hwf' ..
  change wordOfBytes ((s.withFetchWord 16 w).peek s.pc.toNat) ((s.withFetchWord 16 w).peek (s.pc.toNat + 1)) = _
  rw [hhi, hlo, wordOfBytes_hi_lo, tableWord_16]

/-- Settles O12: the fetch reads the two placed bytes, and the step runs what they decode to. -/
theorem placedWordIsFetched : Obligations.PlacedWordIsFetched := by
  intro s w hwf hpc _
  have hf := fetch_withFetchWord hwf hpc w
  exact ⟨hf, fun i hi => stepRunsDecodedInstruction _ _ i rfl hf (decode_of_decodeTableWord hi)⟩

/-! ### Power-up and LOAD (R280, R282) -/

/-- Where nothing is listed the font stands at FONT_BASE, row `r` of digit `d` at offset `5d + r` (R27). -/
theorem unlisted_font {base d r : Nat} (hd : d < 16) (hr : r < 5) : unlisted base (base + 5 * d + r) = fontRow d r := by
  have hin : base ≤ base + 5 * d + r ∧ base + 5 * d + r < base + Config.fontBytes := by
    unfold Config.fontBytes
    omega
  have hoff : base + 5 * d + r - base = 5 * d + r := by omega
  have hdiv : (5 * d + r) / Config.glyphBytes = d := by
    unfold Config.glyphBytes
    omega
  have hmod : (5 * d + r) % Config.glyphBytes = r := by
    unfold Config.glyphBytes
    omega
  rw [unlisted, if_pos hin, hoff, hdiv, hmod]

theorem unlisted_outside {base a : Nat} (h : a < base ∨ base + 80 ≤ a) : unlisted base a = 0 := by
  rw [unlisted, Config.fontBytes, if_neg (by omega)]

theorem pixel_of_replicate {y : Fin 32} {x : Fin 64} (h : s.disp = .replicate 32 0) : s.pixel y x = false := by
  simp [State.pixel, h]

theorem reg_of_replicate {x : RegIdx} (h : s.v = .replicate 16 0) : s.reg x = 0 := by simp [State.reg, h]

theorem stack_of_replicate {k : Fin 16} (h : s.stack = .replicate 16 0) : s.stack[k] = 0 := by simp [h]

/-- Settles O16: the fields as State.reset gives them, and memory as nothing but the unlisted bytes. -/
theorem resetState : Obligations.ResetState := by
  refine ⟨fun x => reg_of_replicate rfl, rfl, rfl, rfl, fun k => stack_of_replicate rfl, rfl, rfl,
    fun y x => pixel_of_replicate rfl, rfl, rfl, rfl, rfl, rfl, rfl,
    fun d r hd hr => unlisted_font hd hr, fun a ha => ?_⟩
  have hout : a < 0x050 ∨ 0x050 + 80 ≤ a := by omega
  exact unlisted_outside hout

/-- The state LOAD of an image that fits leaves (R282). -/
theorem transact_load_ok {bytes : List Byte} (hl : bytes.length ≤ 0xE00) : transact (.load bytes) s =
    .next ((s.reinit.pokes Config.programBase bytes).setRun .normal, .ok) := by
  rw [transact_load, load_ok hl]

/-- The image stands at 0x200 and up. -/
theorem peek_load_image {bytes : List Byte} (hl : bytes.length ≤ 0xE00) {j : Nat} (hj : j < bytes.length) :
    (s.reinit.pokes Config.programBase bytes).peek (Config.programBase + j) = bytes[j] := by
  rw [State.peek_pokes (s := s.reinit) Memory.wf_nil (programBase_add_le hl)]
  simp [hj]

/-- Below and above the image MEM is as initialization left it. -/
theorem peek_load_outside {bytes : List Byte} (hl : bytes.length ≤ 0xE00) {a : Nat}
    (ha : a < Config.programBase ∨ Config.programBase + bytes.length ≤ a) :
    (s.reinit.pokes Config.programBase bytes).peek a = unlisted s.params.fontBase a := by
  rw [State.peek_pokes (s := s.reinit) Memory.wf_nil (programBase_add_le hl), dif_neg (by omega)]
  rfl

/-- Settles O20: LOAD is initialization with the image placed at 0x200; the font ends below it (R5). -/
theorem loadPlacesProgram : Obligations.LoadPlacesProgram := by
  intro s bytes hl
  have hbase := s.params.fontBase.isLt
  have hprog : Config.programBase = 0x200 := rfl
  refine ⟨_, transact_load_ok hl, fun j hj => peek_load_image hl hj, fun a ha => ?_, fun d r hd hr => ?_,
    fun a ha hout => ?_, fun x => reg_of_replicate rfl, rfl, rfl, rfl, fun k => stack_of_replicate rfl, rfl, rfl,
    fun y x => pixel_of_replicate rfl, rfl, rfl, rfl, rfl, rfl, rfl, rfl⟩
  · exact (peek_load_outside hl (.inr ha)).trans (unlisted_outside (by omega))
  · exact (peek_load_outside hl (.inl (by omega))).trans (unlisted_font hd hr)
  · exact (peek_load_outside hl (.inl ha)).trans (unlisted_outside hout)

/-- Settles O21: the image is not placed, and RUN alone changes. -/
theorem loadRejectsLongProgram : Obligations.LoadRejectsLongProgram := by
  intro s bytes hl
  refine ⟨s.setRun .idle, ?_, rfl, rfl, .setRun _ rfl⟩
  rw [transact_load, load_too_large hl]

end Sys2Proof.Machine
end

section
/-! PROOFS. The transfers through I: LD B, LD [I],Vx and LD Vx,[I] (R236 to R242). -/
namespace Sys2Proof.Machine

variable {s t u : State} {x : RegIdx}

/-! ### Bytes stored from `base` up -/

theorem peek_pokes_add (hwf : s.mem.wf s.bg) {base : Nat} {bs : List Byte} (hl : base + bs.length ≤ 0x1000) {j : Nat}
    (hj : j < bs.length) : (s.pokes base bs).peek (base + j) = bs[j] := by
  rw [State.peek_pokes hwf hl]
  simp [hj]

theorem peek_congr (hmem : u.mem = t.mem) (hparams : u.params = t.params) (a : Nat) : u.peek a = t.peek a := by
  rw [State.peek, State.peek, State.bg, State.bg, hmem, hparams]

/-! ### LD B (R236) -/

theorem toNat_bcdDigits (b : Byte) (j : Nat) (hj : j < (bcdDigits b).length) :
    ((bcdDigits b)[j]).toNat = [b.toNat / 100, b.toNat / 10 % 10, b.toNat % 10][j] := by
  have hb := b.isLt
  obtain _ | _ | _ | j := j
  · exact (BitVec.toNat_ofNat ..).trans (Nat.mod_eq_of_lt (by omega))
  · exact (BitVec.toNat_ofNat ..).trans (Nat.mod_eq_of_lt (by omega))
  · exact (BitVec.toNat_ofNat ..).trans (Nat.mod_eq_of_lt (by omega))
  · simp [bcdDigits] at hj
    omega

theorem exec_ldBVx_of_le (h : s.i.toNat + 2 ≤ 0xFFF) :
    exec (.ldBVx x) s = .next (s.pokes s.indexAddr (bcdDigits (s.reg x))).advance :=
  exec_of_no_fault ((checksRange_ldBVx x).no_fault (by unfold State.indexAddr; omega))

/-- Settles O53: the three digits are the bytes stored, in this order. -/
theorem bcdStoresThreeDigits : Obligations.BcdStoresThreeDigits := by
  intro x s hwf hi
  have hl : s.indexAddr + (bcdDigits (s.reg x)).length ≤ 0x1000 := Nat.succ_le_succ hi
  have hpeek : ∀ j, (hj : j < 3) → ((s.pokes s.indexAddr (bcdDigits (s.reg x))).peek (s.indexAddr + j)).toNat =
      [(s.reg x).toNat / 100, (s.reg x).toNat / 10 % 10, (s.reg x).toNat % 10][j] := fun j hj =>
    (congrArg BitVec.toNat (peek_pokes_add hwf hl hj)).trans (toNat_bcdDigits _ j hj)
  refine ⟨_, exec_ldBVx_of_le hi, hpeek 0 (by decide), hpeek 1 (by decide), hpeek 2 (by decide), rfl, ?_⟩
  exact (onlyChanges.pokes hwf hl fun j hj => .inr ⟨j, hj, rfl⟩).trans (.advance (.inl rfl))

/-! ### LD [I],Vx and LD Vx,[I] (R238, R240) -/

theorem exec_ldMemIVx_of_le (h : s.i.toNat + x.val ≤ 0xFFF) :
    exec (.ldMemIVx x) s = .next ((s.pokes s.indexAddr (s.regsUpTo x)).stepIndex x).advance :=
  exec_of_no_fault ((checksRange_ldMemIVx x).no_fault (by unfold State.indexAddr; omega))

theorem exec_ldVxMemI_of_le (h : s.i.toNat + x.val ≤ 0xFFF) : exec (.ldVxMemI x) s =
    .next ((s.loadRegs 0 (s.peeks s.indexAddr (x.val + 1))).stepIndex x).advance :=
  exec_of_no_fault ((checksRange_ldVxMemI x).no_fault (by unfold State.indexAddr; omega))

/-- After a transfer that fits I + x + 1 does not wrap (log entry 14). -/
theorem toNat_stepIndex_i (hi : t.i = s.i) (hp : t.params = s.params) (h : s.i.toNat + x.val ≤ 0xFFF) :
    (t.stepIndex x).i.toNat = if s.params.memIncrementsI then s.i.toNat + x.val + 1 else s.i.toNat := by
  have hx := x.isLt
  rw [State.stepIndex, hp]
  split_ifs
  · rw [State.setI_i, hi, BitVec.toNat_add, BitVec.toNat_ofNat]
    omega
  · rw [hi]

theorem peek_pokes_regsUpTo (hwf : s.mem.wf s.bg) (h : s.i.toNat + x.val ≤ 0xFFF) {j : RegIdx} (hj : j ≤ x) :
    (s.pokes s.indexAddr (s.regsUpTo x)).peek (s.indexAddr + j.val) = s.reg j := by
  have hlen := s.length_regsUpTo x
  have hj' : j.val < (s.regsUpTo x).length := by
    rw [hlen]
    exact Nat.lt_succ_of_le hj
  have hl : s.indexAddr + (s.regsUpTo x).length ≤ 0x1000 := by
    unfold State.indexAddr
    omega
  rw [peek_pokes_add hwf hl hj', State.getElem_regsUpTo]

/-- Settles O54: the bytes stored are V0..Vx, in this order. -/
theorem storeRegistersToMemory : Obligations.StoreRegistersToMemory := by
  intro x s hwf h
  have hlen := s.length_regsUpTo x
  have hl : s.indexAddr + (s.regsUpTo x).length ≤ 0x1000 := by
    unfold State.indexAddr
    omega
  refine ⟨_, exec_ldMemIVx_of_le h, fun j hj => ?_, toNat_stepIndex_i rfl rfl h, ?_, ?_⟩
  · rw [State.stepIndex_eq]
    exact peek_pokes_regsUpTo hwf h hj
  · rw [State.stepIndex_eq]
    rfl
  · refine ((onlyChanges.pokes hwf hl fun j hj => .inr (.inr ⟨j, ?_, rfl⟩)).trans
      (.stepIndex x (.inr (.inl rfl)))).trans (.advance (.inl rfl))
    omega

theorem reg_loadRegs_peeks {n : Nat} {base : Nat} {j : RegIdx} (hj : j.val < n) :
    (s.loadRegs 0 (s.peeks base n)).reg j = s.peek (base + j.val) := by
  rw [State.reg_loadRegs]
  simp [State.peeks, hj]

/-- Settles O55: V0..Vx are the bytes read, in this order. -/
theorem loadRegistersFromMemory : Obligations.LoadRegistersFromMemory := by
  intro x s h
  refine ⟨_, exec_ldVxMemI_of_le h, fun j hj => ?_, toNat_stepIndex_i ?_ ?_ h, ?_, ?_⟩
  · rw [State.stepIndex_eq]
    exact reg_loadRegs_peeks (Nat.lt_succ_of_le hj)
  · rw [State.loadRegs_eq]
    rfl
  · rw [State.loadRegs_eq]
    rfl
  · rw [State.stepIndex_eq, State.loadRegs_eq]
    rfl
  · refine ((onlyChanges.loadRegs fun r hr => .inr (.inr ⟨r, ?_, rfl⟩)).trans
      (.stepIndex x (.inr (.inl rfl)))).trans (.advance (.inl rfl))
    exact Nat.le_of_lt_succ (by simpa [State.peeks] using hr)

/-- Settles O57: the load reads the bytes the store put there. -/
theorem storeThenLoadRestores : Obligations.StoreThenLoadRestores := by
  intro x s t u hwf h ht hui hsame
  have hu : u.indexAddr = s.indexAddr := congrArg BitVec.toNat hui
  obtain ⟨t', ht', hstored, -⟩ := storeRegistersToMemory x s hwf h
  cases ht'.symm.trans ht
  obtain ⟨w, hw, hloaded, -⟩ := loadRegistersFromMemory x u (hui ▸ h)
  refine ⟨w, hw, fun j hj => ?_⟩
  rw [hloaded j hj, hu, hsame j hj, hstored j hj]

/-- Settles O8: the fetch reads the two stored bytes, the lower address high. -/
theorem storeSeenByFetch : Obligations.StoreSeenByFetch := by
  intro s t u x j hwf h hj ht hmem hparams hpc
  obtain ⟨t', ht', hstored, -⟩ := storeRegistersToMemory x s hwf h
  cases ht'.symm.trans ht
  have hi : s.indexAddr = s.i.toNat := rfl
  refine State.fetch_eq_ok_iff.mpr ⟨by omega, ?_⟩
  rw [peek_congr hmem hparams, peek_congr hmem hparams, hpc, Nat.add_assoc,
    hstored ⟨j.val, by omega⟩ (Nat.le_of_succ_le hj), hstored ⟨j.val + 1, by omega⟩ hj]

/-! ### Out of range (R63) -/

/-- Settles O56: one range check for all four, which fails exactly when the last address is above 0xFFF. -/
theorem rangeFaultsAreWhole : Obligations.RangeFaultsAreWhole := by
  intro x y n s
  refine ⟨fun hn h => ?_, fun h => ?_, fun h => ?_, fun h => ?_⟩
  · exact exec_of_fault ((checksRange_drw x y n).fault ⟨hn, h⟩)
  · exact exec_of_fault ((checksRange_ldBVx x).fault ⟨by decide, h⟩)
  · exact exec_of_fault ((checksRange_ldMemIVx x).fault ⟨Nat.succ_pos _, h⟩)
  · exact exec_of_fault ((checksRange_ldVxMemI x).fault ⟨Nat.succ_pos _, h⟩)

end Sys2Proof.Machine
end

section
/-! PROOFS. DRW (R192): the sprite as an XOR of pixels, its collision bit, and the second draw (R193). -/
namespace Sys2Proof.Machine

variable {s t u : State} {x y : RegIdx} {n : Nibble}

theorem onlyChanges.setDisp {A : Part → Prop} (d : Grid) (h : ∀ y x, A (.pixel y x)) :
    onlyChanges A s (s.setDisp d) := by
  intro p hp
  cases p with
  | pixel y x => exact absurd (h y x) hp
  | _ => rfl

theorem exec_drw_of_le (h : n.toNat = 0 ∨ s.i.toNat + n.toNat ≤ 0x1000) :
    exec (.drw x y n) s = .next (drawRows s x y (s.peeks s.indexAddr n.toNat)) :=
  exec_of_no_fault ((checksRange_drw x y n).no_fault (by unfold State.indexAddr; omega))

/-! ### The pixels under a sprite -/

/-- The positions of the 1 bits of the sprite DRW draws (R191, R192). -/
def drawnPos (s : State) (x y : RegIdx) (n : Nibble) : List Pos :=
  spritePos ((s.reg y).toNat % 32) ((s.reg x).toNat % 64) (s.peeks s.indexAddr n.toNat)

theorem length_peeks (base k : Nat) : (s.peeks base k).length = k := by simp [State.peeks]

theorem getElem_peeks {base k r : Nat} (h : r < (s.peeks base k).length) :
    (s.peeks base k)[r] = s.peek (base + r) := by simp [State.peeks]

theorem mem_drawnPos {py : Fin 32} {px : Fin 64} : (py, px) ∈ drawnPos s x y n ↔
    ∃ r < n.toNat, py.val = ((s.reg y).toNat % 32 + r) % 32 ∧ (px.val + 64 - (s.reg x).toNat % 64) % 64 < 8 ∧
      (s.peek (s.i.toNat + r)).getLsbD (7 - (px.val + 64 - (s.reg x).toNat % 64) % 64) = true := by
  rw [drawnPos, mem_spritePos (Nat.mod_lt _ (by decide))]
  simp only [getElem_peeks, length_peeks, exists_prop]
  rfl

/-- A sprite has at most 15 rows, so the row a pixel is in is given by its distance from the start alone. -/
theorem spriteBit_eq_true_iff (py : Fin 32) (px : Fin 64) :
    s.spriteBit x y n py px = true ↔ (py, px) ∈ drawnPos s x y n := by
  have hn : n.toNat < 16 := n.isLt
  simp only [mem_drawnPos, State.spriteBit, Bool.and_eq_true, decide_eq_true_eq, and_assoc]
  constructor
  · rintro ⟨hr, hb, hbit⟩
    exact ⟨_, hr, by omega, hb, hbit⟩
  · rintro ⟨r, hr, hpy, hb, hbit⟩
    have hrow : (py.val + 32 - (s.reg y).toNat % 32) % 32 = r := by omega
    rw [hrow]
    exact ⟨hr, hb, hbit⟩

theorem nodup_drawnPos : (drawnPos s x y n).Nodup := by
  have hn : n.toNat < 16 := n.isLt
  exact nodup_spritePos (Nat.mod_lt _ (by decide)) _ _ (by rw [length_peeks]; omega)

theorem blitAtRegs_eq :
    blitAtRegs s x y (s.peeks s.indexAddr n.toNat) = (drawnPos s x y n).foldl blitAt (s.disp, false) :=
  blitRows_eq ..

theorem pixel_drawRows (py : Fin 32) (px : Fin 64) :
    (drawRows s x y (s.peeks s.indexAddr n.toNat)).pixel py px = (s.pixel py px ^^ s.spriteBit x y n py px) := by
  change (blitAtRegs s x y (s.peeks s.indexAddr n.toNat)).1.at py px = _
  have hbit : s.spriteBit x y n py px = decide ((py, px) ∈ drawnPos s x y n) := by
    rw [Bool.eq_iff_iff, spriteBit_eq_true_iff, decide_eq_true_iff]
  rw [blitAtRegs_eq, at_foldl_blitAt nodup_drawnPos, hbit, State.at_disp]

theorem vf_drawRows : (drawRows s x y (s.peeks s.indexAddr n.toNat)).vf =
    flagByte (decide (∃ py px, s.pixel py px = true ∧ s.spriteBit x y n py px = true)) := by
  have hvf : (drawRows s x y (s.peeks s.indexAddr n.toNat)).vf =
      flagByte (blitAtRegs s x y (s.peeks s.indexAddr n.toNat)).2 := State.reg_setReg_self ..
  rw [hvf, blitAtRegs_eq, collision_foldl_blitAt nodup_drawnPos, Bool.false_or]
  refine congrArg flagByte (decide_eq_decide.mpr ⟨?_, ?_⟩)
  · rintro ⟨⟨py, px⟩, hmem, hset⟩
    exact ⟨py, px, hset, (spriteBit_eq_true_iff py px).mpr hmem⟩
  · rintro ⟨py, px, hset, hbit⟩
    exact ⟨(py, px), (spriteBit_eq_true_iff py px).mp hbit, hset⟩

/-! ### The statements -/

/-- Settles O46: no pixel is met twice, so drawing is an XOR and a collision a set pixel under a 1 bit. -/
theorem drwXorsSprite : Obligations.DrwXorsSprite := by
  intro x y n s h
  refine ⟨_, exec_drw_of_le h, pixel_drawRows, fun hc => ?_, fun hc => ?_, rfl, ?_⟩
  · rw [vf_drawRows, decide_eq_true hc]
    rfl
  · rw [vf_drawRows, decide_eq_false hc]
    rfl
  · exact ((onlyChanges.setDisp _ fun py px => .inr (.inr ⟨py, px, rfl⟩)).trans
      (.setReg _ (.inr (.inl rfl)))).trans (.advance (.inl rfl))

/-- The sprite is the same where I, the coordinates and its bytes are. -/
theorem spriteBit_congr (hi : u.i = s.i) (hx : u.reg x = s.reg x) (hy : u.reg y = s.reg y)
    (hbytes : ∀ j, j < n.toNat → u.peek (s.i.toNat + j) = s.peek (s.i.toNat + j)) (py : Fin 32) (px : Fin 64) :
    u.spriteBit x y n py px = s.spriteBit x y n py px := by
  simp only [State.spriteBit, hi, hx, hy]
  by_cases hr : (py.val + 32 - (s.reg y).toNat % 32) % 32 < n.toNat
  · rw [hbytes _ hr]
  · simp [hr]

/-- Settles O47: the second XOR with the same sprite undoes the first, and it meets a set pixel exactly where the
first one set it. -/
theorem secondDrawRestoresDisplay : Obligations.SecondDrawRestoresDisplay := by
  intro x y n s t u h ht hdisp hi hx hy hbytes
  obtain ⟨t', ht', hfirst, -⟩ := drwXorsSprite x y n s h
  cases ht'.symm.trans ht
  obtain ⟨w, hw, hsecond, hset, hclear, -⟩ := drwXorsSprite x y n u (hi ▸ h)
  have hpixel : ∀ py px, u.pixel py px = (s.pixel py px ^^ s.spriteBit x y n py px) := fun py px => by
    rw [← hfirst py px, State.pixel, State.pixel, hdisp]
  have hcollide : (∃ py px, u.pixel py px = true ∧ u.spriteBit x y n py px = true) ↔
      ∃ py px, s.pixel py px = false ∧ t.pixel py px = true := by
    refine exists₂_congr fun py px => ?_
    rw [hpixel, hfirst, spriteBit_congr hi hx hy hbytes]
    cases s.pixel py px <;> cases s.spriteBit x y n py px <;> decide
  refine ⟨w, hw, fun py px => ?_, fun hc => hset (hcollide.mpr hc), fun hc => hclear (mt hcollide.mp hc)⟩
  rw [hsecond, hpixel, spriteBit_congr hi hx hy hbytes, Bool.xor_assoc, Bool.xor_self, Bool.xor_false]

end Sys2Proof.Machine
end
